-- ==== Sys2Proof/Word.lean ====
section
/-! DEFINITION. The word types of CORE: bytes, the 9-bit program counter, register numbers (spec/00_scope.md R7, R9, R10). -/

namespace Sys2Proof

/-- A memory cell, a register, an operand byte: an unsigned 8-bit value (00_scope.md R7 `CELL_BITS`, `XLEN`, R10). -/
abbrev Byte := BitVec 8

/-- The program counter: 9 bits, so that it can stand past address 255 (10_state.md R30). -/
abbrev PcWord := BitVec 9

/-- The number of a register, 0 to 7 (10_state.md R20). -/
abbrev RegIx := Fin 8

end Sys2Proof
end

