-- ==== Sys2Proof/Config.lean ====
section
/-! DEFINITION. The fixed sizes and reset values of CORE (spec/00_scope.md R7, 10_state.md R46).
The spec leaves no value free, so nothing here is opaque. Its named parameters
(93_implementation_defined.md part 2) stand at their defaults throughout the model (log 5). -/

namespace Sys2Proof.Config

/-- `MEM_SIZE`: the cells are at addresses 0 to 255 (20_memory.md R50). -/
abbrev memSize : Nat := 256

/-- What a cell holds after reset, and so what an address that memory does not list reads as (10_state.md R43). -/
abbrev memReset : Byte := 0#8

/-- `SP`: register 7 is the stack pointer (10_state.md R21). -/
abbrev sp : RegIx := 7

/-- `SP_RESET` (10_state.md R26). -/
abbrev spReset : Byte := 244#8

/-- `RESET_GPR` at its default: registers 0 to 6 after reset (10_state.md R26; the spec's decision D11, log 3). -/
abbrev gprReset : Byte := 0#8

/-- `PC_RESET` (10_state.md R34). -/
abbrev pcReset : PcWord := 0#9

/-- `RESET_FL` at its default (10_state.md R38; the spec's decision D11, log 3). -/
abbrev flReset : Byte := 0#8

/-- `E_BIT`: the place of the equal flag in FL (10_state.md R35; the spec's decision D12, log 4). -/
abbrev equalBit : Nat := 0

end Sys2Proof.Config
end

