-- ==== Sys2Proof/Syntax.lean ====
section
/-! DEFINITION. The nineteen instructions of spec/30_encoding.md R78, one constructor per row of spec/opcode_table.json.
An operand is the whole operand byte (R73, R74): a register operand above 7 is a term of this type,
is not well formed (WellFormed.lean) and faults when it is executed (40_engine.md R94; log 8). -/

namespace Sys2Proof

/-- An instruction with its operand bytes, `a` at `pc+1` and `b` at `pc+2` (30_encoding.md R72). -/
inductive Instr where
  /-- HLT: 45_system.md R165. -/
  | hlt
  /-- RET: 44_control.md R152. -/
  | ret
  /-- PUSH ra: 43_stack.md R141. -/
  | push (a : Byte)
  /-- POP ra: 43_stack.md R142. -/
  | pop (a : Byte)
  /-- PRN ra: 41_data_movement.md R112. -/
  | prn (a : Byte)
  /-- CALL ra: 44_control.md R151. -/
  | call (a : Byte)
  /-- JMP ra: 44_control.md R153. -/
  | jmp (a : Byte)
  /-- JEQ ra: 44_control.md R154. -/
  | jeq (a : Byte)
  /-- JNE ra: 44_control.md R155. -/
  | jne (a : Byte)
  /-- INC ra: 42_alu.md R126. -/
  | inc (a : Byte)
  /-- DEC ra: 42_alu.md R127. -/
  | dec (a : Byte)
  /-- LDI ra, imm: 41_data_movement.md R110; `b` is the immediate. -/
  | ldi (a b : Byte)
  /-- LD ra, rb: 41_data_movement.md R111, a register copy. -/
  | ld (a b : Byte)
  /-- ADD ra, rb: 42_alu.md R121. -/
  | add (a b : Byte)
  /-- MUL ra, rb: 42_alu.md R122. -/
  | mul (a b : Byte)
  /-- DIV ra, rb: 42_alu.md R125. -/
  | div (a b : Byte)
  /-- MOD ra, rb: 42_alu.md R124. -/
  | mod (a b : Byte)
  /-- CMP ra, rb: 42_alu.md R128. -/
  | cmp (a b : Byte)
  /-- AND ra, rb: 42_alu.md R123. -/
  | and (a b : Byte)
  deriving DecidableEq, Repr

end Sys2Proof
end

