-- ==== Sys2Proof/WellFormed.lean ====
section
/-! DEFINITION. Which instructions are well formed: every operand byte used as a register index is at most 7
(spec/30_encoding.md R73, R82; 40_engine.md R94). -/

namespace Sys2Proof

/-- An operand byte names a register exactly when it is 0 to 7; no bit of it is ignored (10_state.md R24). -/
def namesRegister (b : Byte) : Bool := decide (b.toNat < 8)

/-- The one legality check of the instruction set: `a` and `b` for format RR, `a` for formats R and RI,
nothing for format Z; LDI's `b` is an immediate and is never checked (40_engine.md R94). -/
def Instr.wellFormed : Instr → Bool
  | .hlt | .ret => true
  | .push a | .pop a | .prn a | .call a | .jmp a | .jeq a | .jne a | .inc a | .dec a => namesRegister a
  | .ldi a _ => namesRegister a
  | .ld a b | .add a b | .mul a b | .div a b | .mod a b | .cmp a b | .and a b => namesRegister a && namesRegister b

/-- `Instr.wellFormed` as a proposition. -/
abbrev Instr.WellFormed (i : Instr) : Prop := i.wellFormed = true

end Sys2Proof
end

