-- ==== Sys2Proof/Decode.lean ====
section
/-! DEFINITION. The decoder and the encoder (spec/30_encoding.md R70 to R75, R78; 40_engine.md R92, R93).
Decoding compares all eight bits of the opcode byte as one value against the opcode map; a byte that is not in the
map is an unknown opcode, which the machine runs as a no-operation and does not reject (30_encoding.md R81). -/

namespace Sys2Proof

/-- `n = ir[7:6]`, the operand count (30_encoding.md R71). -/
def operandCount (ir : Byte) : Nat := (ir.extractLsb' 6 2).toNat

/-- How many operand bytes are read: `n`, but never a third one (40_engine.md R92, 45_system.md R168). -/
def operandsFetched (ir : Byte) : Nat := min (operandCount ir) 2

/-- What an opcode byte and its operands stand for. -/
inductive Decoded where
  /-- One of the nineteen instructions. -/
  | instr (i : Instr)
  /-- An opcode byte outside the opcode map (30_encoding.md R81). -/
  | unknown (ir : Byte)
  deriving DecidableEq, Repr

/-- Why a list of bytes does not begin with an instruction. -/
inductive DecodeError where
  /-- There is no byte at all. -/
  | noOpcode
  /-- Fewer operand bytes stand there than the opcode byte calls for (40_engine.md R92). -/
  | operandMissing
  deriving DecidableEq, Repr

/-- The four formats of 30_encoding.md R72, each with the instruction it builds from its operand bytes. -/
inductive Shape where
  /-- Format Z: one byte. -/
  | z (i : Instr)
  /-- Format R: a register operand. -/
  | r (mk : Byte → Instr)
  /-- Format RR: two register operands. -/
  | rr (mk : Byte → Byte → Instr)
  /-- Format RI: a register operand and an immediate. -/
  | ri (mk : Byte → Byte → Instr)

/-- A row of the opcode map. -/
structure OpcodeRow where
  opcode : Byte
  shape : Shape

/-- The opcode map of 30_encoding.md R78, row for row (the values are the spec's decision D2; log 6). -/
def opcodeTable : List OpcodeRow := [
  ⟨0b00000001#8, .z .hlt⟩,
  ⟨0b00010001#8, .z .ret⟩,
  ⟨0b01000101#8, .r .push⟩,
  ⟨0b01000110#8, .r .pop⟩,
  ⟨0b01000111#8, .r .prn⟩,
  ⟨0b01010000#8, .r .call⟩,
  ⟨0b01010100#8, .r .jmp⟩,
  ⟨0b01010101#8, .r .jeq⟩,
  ⟨0b01010110#8, .r .jne⟩,
  ⟨0b01100101#8, .r .inc⟩,
  ⟨0b01100110#8, .r .dec⟩,
  ⟨0b10000010#8, .ri .ldi⟩,
  ⟨0b10000011#8, .rr .ld⟩,
  ⟨0b10100000#8, .rr .add⟩,
  ⟨0b10100010#8, .rr .mul⟩,
  ⟨0b10100011#8, .rr .div⟩,
  ⟨0b10100100#8, .rr .mod⟩,
  ⟨0b10100111#8, .rr .cmp⟩,
  ⟨0b10101000#8, .rr .and⟩]

/-- Dispatch on the exact opcode value (40_engine.md R93). -/
def rowOf (ir : Byte) : Option OpcodeRow := opcodeTable.find? fun row => row.opcode == ir

/-- The instruction of a row with the operand bytes that follow its opcode byte; what stands after them is left alone. -/
def Shape.build : Shape → List Byte → Except DecodeError Decoded
  | .z i, _ => .ok (.instr i)
  | .r mk, a :: _ => .ok (.instr (mk a))
  | .rr mk, a :: b :: _ => .ok (.instr (mk a b))
  | .ri mk, a :: b :: _ => .ok (.instr (mk a b))
  | .r _, [] | .rr _, _ | .ri _, _ => .error .operandMissing

/-- The decoder: total on any bytes, the first of them the opcode byte (30_encoding.md R70, R71). An unknown opcode has
its operand bytes fetched too, before dispatch (40_engine.md R92). -/
def decode : List Byte → Except DecodeError Decoded
  | [] => .error .noOpcode
  | ir :: operands =>
    match rowOf ir with
    | some row => row.shape.build operands
    | none => if operands.length < operandsFetched ir then .error .operandMissing else .ok (.unknown ir)

/-- The opcode byte of an instruction (30_encoding.md R78, in its hexadecimal column). -/
def Instr.opcode : Instr → Byte
  | .hlt => 0x01#8
  | .ret => 0x11#8
  | .push _ => 0x45#8
  | .pop _ => 0x46#8
  | .prn _ => 0x47#8
  | .call _ => 0x50#8
  | .jmp _ => 0x54#8
  | .jeq _ => 0x55#8
  | .jne _ => 0x56#8
  | .inc _ => 0x65#8
  | .dec _ => 0x66#8
  | .ldi _ _ => 0x82#8
  | .ld _ _ => 0x83#8
  | .add _ _ => 0xA0#8
  | .mul _ _ => 0xA2#8
  | .div _ _ => 0xA3#8
  | .mod _ _ => 0xA4#8
  | .cmp _ _ => 0xA7#8
  | .and _ _ => 0xA8#8

/-- The operand bytes of an instruction, in address order (30_encoding.md R72). -/
def Instr.operands : Instr → List Byte
  | .hlt | .ret => []
  | .push a | .pop a | .prn a | .call a | .jmp a | .jeq a | .jne a | .inc a | .dec a => [a]
  | .ldi a b | .ld a b | .add a b | .mul a b | .div a b | .mod a b | .cmp a b | .and a b => [a, b]

/-- The encoder: the bytes of an instruction at ascending addresses, opcode first (30_encoding.md R70). -/
def encode (i : Instr) : List Byte := i.opcode :: i.operands

/-- The bytes of an instruction's bits as the opcode table numbers them: bit 0 is the least significant bit of the first byte.
Bits at and above `nbits` are 0, up to the three bytes of the longest instruction. -/
def tableBytes (nbits w : Nat) : List Byte :=
  let bits := w % 2 ^ nbits
  [BitVec.ofNat 8 bits, BitVec.ofNat 8 (bits / 2 ^ 8), BitVec.ofNat 8 (bits / 2 ^ 16)]

/-- The instruction this decoder reads from an instruction whose bits are `w`, numbered as spec/opcode_table.json numbers them. -/
def decodeTableWord (nbits w : Nat) : Option Instr :=
  match decode (tableBytes nbits w) with
  | .ok (.instr i) => some i
  | _ => none

end Sys2Proof
end

