-- ==== Sys2Proof/Machine/State.lean ====
section
/-! DEFINITION. The state of CORE: everything spec/10_state.md gives the machine, and nothing else. -/

namespace Sys2Proof.Machine

open Sys2Proof

/-- The causes of a clean end (10_state.md R40; 60_exceptions.md R177, R178, R179). -/
inductive HaltCause where
  /-- HLT was executed. -/
  | hlt
  /-- DIV met a zero divisor. -/
  | divideByZero
  /-- A step began with `pc >= 256`. -/
  | pcPastEnd
  deriving DecidableEq, Repr

/-- The reasons of a faulted run (10_state.md R40; 60_exceptions.md R183 to R187). -/
inductive FaultReason where
  /-- An operand address to be read exceeds 255. -/
  | operandFetchOutOfRange
  /-- A register-designating operand byte exceeds 7. -/
  | registerIndexOutOfRange
  /-- MOD met a zero divisor. -/
  | moduloByZero
  /-- A stack instruction would take `x[7]` below 0 or above 255. -/
  | stackPointerOutOfRange
  /-- The return address of CALL exceeds 255. -/
  | returnAddressOutOfRange
  deriving DecidableEq, Repr

/-- The run state RUN (10_state.md R40). -/
inductive RunState where
  | running
  | halted (cause : HaltCause)
  | faulted (reason : FaultReason)
  deriving DecidableEq, Repr

/-- Memory: (address, byte) pairs in one canonical form (`Memory.wf`), an unlisted address reading as `Config.memReset`. -/
abbrev Memory := List Host.Cell

/-- The canonical form: addresses strictly rising, each in 0 to 255 (20_memory.md R50), and no byte listed that an unlisted
address reads as. Equal memories are then equal lists. -/
abbrev Memory.wf (m : Memory) : Prop :=
  m.Pairwise (fun c d => c.1 < d.1) ∧ ∀ c ∈ m, c.1 < Config.memSize ∧ c.2 ≠ Config.memReset

/-- The whole state (10_state.md, opening paragraph). -/
structure State where
  /-- `x[0]` to `x[7]`; `x[7]` is the stack pointer (R20, R21). -/
  regs : Vector Byte 8
  /-- The program counter (R30). -/
  pc : PcWord
  /-- The flag register FL, the equal flag at bit 0 (R35). -/
  fl : Byte
  /-- The run state RUN (R40). -/
  run : RunState
  /-- MEM, cells 0 to 255 (R43). -/
  mem : Memory
  /-- OUT, the values emitted so far, oldest first (R44). -/
  out : List Byte
  deriving DecidableEq, Repr

/-- The machine right after reset, before the loader (10_state.md R46). -/
def State.reset : State where
  regs := #v[Config.gprReset, Config.gprReset, Config.gprReset, Config.gprReset, Config.gprReset, Config.gprReset,
    Config.gprReset, Config.spReset]
  pc := Config.pcReset
  fl := Config.flReset
  run := .running
  mem := []
  out := []

/-- Why a step has no next state: RUN is terminal, so no step is taken (10_state.md R41). A halt or a fault of the machine
itself is no such stop but a next state, with RUN changed (60_exceptions.md R180; log 1). -/
inductive Fault where
  /-- Raised by `step` when RUN is Halted(cause): the run has ended cleanly. Safe: the spec gives no next state. -/
  | coreHalted (cause : HaltCause)
  /-- Raised by `step` when RUN is Faulted(reason): the run went wrong. Safe: the spec gives no next state. -/
  | coreFaulted (reason : FaultReason)
  deriving DecidableEq, Repr

/-- What the model gives no meaning. -/
inductive Refusal where
  /-- Kept for `exec`'s form; no arm of `exec` answers it, since every instruction has its meaning. Safe. -/
  | notModelled (mnemonic : String)
  /-- Raised by the loader (`loadImage`), never by a step, for an image of more than 256 bytes
  (70_reset_and_hazards.md R203). Safe: no launch state exists. -/
  | imageTooLong
  deriving DecidableEq, Repr

end Sys2Proof.Machine
end

