-- ==== Sys2Proof/Machine/Ops.lean ====
section
/-! DEFINITION. The named operations over memory, registers, program counter, output and run state that the meanings
share (spec/00_scope.md R10, R11), ending a run (60_exceptions.md R175), and what the host does to the machine
(70_reset_and_hazards.md R200, R203). -/

namespace Sys2Proof.Machine

open Sys2Proof

/-- What every meaning answers. -/
abbrev Result := Host.Outcome State Fault Refusal

/-- `trunc8(v) = v mod 256`, the mathematical remainder, for any integer (00_scope.md R10). -/
def trunc8 (v : Int) : Byte := BitVec.ofInt 8 v

/-! ### Memory (20_memory.md R50, R51) -/

/-- The byte at an address; an unlisted address reads as its reset content. -/
def Memory.read : Memory → Nat → Byte
  | [], _ => Config.memReset
  | (k, v) :: rest, a => if a = k then v else Memory.read rest a

/-- Lists a byte at an address, in address order. -/
def Memory.insert : Memory → Nat → Byte → Memory
  | [], a, v => [(a, v)]
  | (k, w) :: rest, a, v =>
    if a < k then (a, v) :: (k, w) :: rest
    else if a = k then (a, v) :: rest
    else (k, w) :: Memory.insert rest a v

/-- Takes an address out of the list. -/
def Memory.erase (m : Memory) (a : Nat) : Memory := m.filter fun c => c.1 != a

/-- Stores a byte, keeping the canonical form: the reset content is stored by listing nothing. -/
def Memory.write (m : Memory) (a : Nat) (v : Byte) : Memory :=
  if v = Config.memReset then m.erase a else m.insert a v

/-- Stores the bytes of a list at consecutive ascending addresses from `a`; one that would lie at or past address 256 has
no cell and is left out. -/
def Memory.writeList (m : Memory) (a : Nat) : List Byte → Memory
  | [] => m
  | v :: vs => Memory.writeList (if a < Config.memSize then m.write a v else m) (a + 1) vs

/-- `MemRead(addr, 1)` at an 8-bit address (00_scope.md R11). -/
def State.load (s : State) (addr : Byte) : Byte := s.mem.read addr.toNat

/-- `MemWrite(addr, 1, v)` at an 8-bit address (00_scope.md R11). -/
def State.store (s : State) (addr v : Byte) : State := { s with mem := s.mem.write addr.toNat v }

/-- The byte at an address computed without wrap-around; addresses above 255 do not exist (40_engine.md R92). -/
def State.byteAt? (s : State) (a : Nat) : Option Byte := if a < Config.memSize then some (s.mem.read a) else none

/-! ### Registers (10_state.md R20, R22, R23) -/

/-- `x[r]`. -/
def State.getReg (s : State) (r : RegIx) : Byte := s.regs[r.val]

/-- `x[r] <- v`. -/
def State.setReg (s : State) (r : RegIx) (v : Byte) : State := { s with regs := s.regs.set r.val v }

/-- `x[7]`, the stack pointer (10_state.md R21). -/
def State.getSp (s : State) : Byte := s.getReg Config.sp

/-- `x[7] <- v`. -/
def State.setSp (s : State) (v : Byte) : State := s.setReg Config.sp v

/-! ### Program counter (40_engine.md R95) -/

/-- The default advance `pc <- pc + n + 1`, in 9 bits. -/
def State.advance (s : State) (n : Nat) : State := { s with pc := s.pc + BitVec.ofNat 9 (n + 1) }

/-- The explicit target `pc <- zext_9(target)`. -/
def State.jump (s : State) (target : Byte) : State := { s with pc := target.setWidth 9 }

/-! ### Output (10_state.md R44) -/

/-- `Emit(v)`: appends one value to OUT; it never blocks and never fails. -/
def State.emit (s : State) (v : Byte) : State := { s with out := s.out ++ [v] }

/-! ### Ending a run (00_scope.md R11, 60_exceptions.md R175)
CORE has no trap: nothing is saved, no mode changes, control goes nowhere (60_exceptions.md R191), and there is no return
from it but a reset (R192). So this is all there is to taking an exception, and the return from one does not exist. -/

/-- `halt(cause)`: RUN becomes Halted(cause), nothing else changes (40_engine.md R99). -/
def State.halt (s : State) (cause : HaltCause) : Result := .next { s with run := .halted cause }

/-- `raise reason`: RUN becomes Faulted(reason), nothing else changes, `pc` included (60_exceptions.md R180). -/
def State.raise (s : State) (reason : FaultReason) : Result := .next { s with run := .faulted reason }

/-- The numeric code of a run state (60_exceptions.md R176). -/
def RunState.code : RunState → Nat
  | .running => 0
  | .halted .hlt => 1
  | .halted .divideByZero => 2
  | .halted .pcPastEnd => 3
  | .faulted .operandFetchOutOfRange => 16
  | .faulted .registerIndexOutOfRange => 17
  | .faulted .moduloByZero => 18
  | .faulted .stackPointerOutOfRange => 19
  | .faulted .returnAddressOutOfRange => 20

/-! ### The stack pointer's two moves (43_stack.md R140, R143; 60_exceptions.md R186) -/

/-- The address a push stores to: the stack pointer after its decrement (43_stack.md R140). -/
def State.pushAddr (s : State) : Byte := trunc8 (s.getSp.toNat - 1)

/-- Decrement before a push; from 0 it is not performed. -/
def State.spDown? (s : State) : Option State := if s.getSp = 0#8 then none else some (s.setSp s.pushAddr)

/-- Increment after a pop; from 255 it is not performed. -/
def State.spUp? (s : State) : Option State :=
  if s.getSp = 255#8 then none else some (s.setSp (trunc8 (s.getSp.toNat + 1)))

/-! ### The host (70_reset_and_hazards.md R200, R203) -/

/-- Reset, at any time and in any run state: nothing of the run before survives (70_reset_and_hazards.md R200). -/
def resetMachine (_ : State) : State := State.reset

/-- The loader: the image goes to addresses 0 upward and nothing else is touched; an image of more than 256 bytes is
refused by the loader, not by the core (70_reset_and_hazards.md R203). -/
def loadImage (image : List Byte) (s : State) : Result :=
  if image.length ≤ Config.memSize then .next { s with mem := s.mem.writeList 0 image } else .refused .imageTooLong

end Sys2Proof.Machine
end

