-- ==== Sys2Proof/Machine/Flags.lean ====
section
/-! DEFINITION. The flag register: one meaningful bit, the equal flag (spec/10_state.md R35, R36, R37). -/

namespace Sys2Proof.Machine

open Sys2Proof

/-- `FL.E`. -/
def State.equalFlag (s : State) : Bool := s.fl.getLsbD Config.equalBit

/-- FL with its equal flag set or cleared and its other seven bits as they were. -/
def withEqualBit (fl : Byte) (e : Bool) : Byte :=
  let bit : Byte := 1#8 <<< Config.equalBit
  if e then fl ||| bit else fl &&& ~~~bit

/-- `FL.E <- e`; no other bit of FL is written (42_alu.md R128). -/
def State.setEqual (s : State) (e : Bool) : State := { s with fl := withEqualBit s.fl e }

end Sys2Proof.Machine
end

