-- ==== Sys2Proof/Machine/Operands.lean ====
section
/-! DEFINITION. Register operands and the check every instruction makes of them before its first effect
(spec/10_state.md R24, 30_encoding.md R73, 40_engine.md R94, 60_exceptions.md R184). -/

namespace Sys2Proof.Machine

open Sys2Proof

/-- The register an operand byte names: the whole byte is the index, and above 7 it names none. -/
def regIndex? (a : Byte) : Option RegIx := if h : a.toNat < 8 then some ⟨a.toNat, h⟩ else none

/-- The operand byte that names a register. -/
def regByte (r : RegIx) : Byte := BitVec.ofNat 8 r.val

/-- Checks one register operand, then goes on with the register it names. -/
def State.withReg (s : State) (a : Byte) (k : RegIx → Result) : Result :=
  match regIndex? a with
  | some r => k r
  | none => s.raise .registerIndexOutOfRange

/-- Checks `a`, then `b` (60_exceptions.md R181), then goes on with the registers they name. -/
def State.withRegs (s : State) (a b : Byte) (k : RegIx → RegIx → Result) : Result :=
  s.withReg a fun ra => s.withReg b fun rb => k ra rb

end Sys2Proof.Machine
end

