-- ==== Sys2Proof/Machine/Alu.lean ====
section
/-! DEFINITION. The ALU block and its eight instructions (spec/42_alu.md R120 to R133).
The block is a closed set of eight pure functions of register values (R120): no other operation can be selected. Each
computes on the unsigned values as integers and narrows once (R129). -/

namespace Sys2Proof.Machine

open Sys2Proof

/-! ### The block (42_alu.md R120, R130, R131) -/

/-- `reg[a] += reg[b]`. -/
def aluAdd (x y : Byte) : Byte := trunc8 (x.toNat + y.toNat)

/-- `reg[a] = reg[a] * reg[b]`. -/
def aluMul (x y : Byte) : Byte := trunc8 (x.toNat * y.toNat)

/-- `reg[a] = reg[a] & reg[b]`, bitwise (R123). -/
def aluAnd (x y : Byte) : Byte := x &&& y

/-- `reg[a] += 1`. -/
def aluInc (x : Byte) : Byte := trunc8 (x.toNat + 1)

/-- `reg[a] -= 1`. -/
def aluDec (x : Byte) : Byte := trunc8 (x.toNat - 1)

/-- `flags[equal] = (reg[a] == reg[b])`. -/
def aluEqual (x y : Byte) : Bool := x == y

/-- `reg[a] / reg[b]`, the floor of the unsigned quotient; `none` is the zero-divisor signal. -/
def aluDiv (x y : Byte) : Option Byte :=
  if y.toNat = 0 then none else some (trunc8 ((x.toNat / y.toNat : Nat) : Int))

/-- `reg[a] % reg[b]`, the unsigned remainder; `none` is the zero-divisor signal. -/
def aluMod (x y : Byte) : Option Byte :=
  if y.toNat = 0 then none else some (trunc8 ((x.toNat % y.toNat : Nat) : Int))

/-! ### The instructions -/

/-- ADD ra, rb (42_alu.md R121). -/
def execAdd (a b : Byte) (s : State) : Result :=
  s.withRegs a b fun ra rb => .next ((s.setReg ra (aluAdd (s.getReg ra) (s.getReg rb))).advance 2)

/-- MUL ra, rb: the truncated product is written and emitted (42_alu.md R122). -/
def execMul (a b : Byte) (s : State) : Result :=
  s.withRegs a b fun ra rb =>
    let t := s.setReg ra (aluMul (s.getReg ra) (s.getReg rb))
    .next ((t.emit (t.getReg ra)).advance 2)

/-- AND ra, rb (42_alu.md R123). -/
def execAnd (a b : Byte) (s : State) : Result :=
  s.withRegs a b fun ra rb => .next ((s.setReg ra (aluAnd (s.getReg ra) (s.getReg rb))).advance 2)

/-- MOD ra, rb: a zero divisor is the fault ModuloByZero (42_alu.md R124, 60_exceptions.md R185). -/
def execMod (a b : Byte) (s : State) : Result :=
  s.withRegs a b fun ra rb =>
    match aluMod (s.getReg ra) (s.getReg rb) with
    | some v => .next ((s.setReg ra v).advance 2)
    | none => s.raise .moduloByZero

/-- DIV ra, rb: a zero divisor is the halt DivideByZero (42_alu.md R125, 60_exceptions.md R179). -/
def execDiv (a b : Byte) (s : State) : Result :=
  s.withRegs a b fun ra rb =>
    match aluDiv (s.getReg ra) (s.getReg rb) with
    | some v => .next ((s.setReg ra v).advance 2)
    | none => s.halt .divideByZero

/-- INC ra (42_alu.md R126). -/
def execInc (a : Byte) (s : State) : Result :=
  s.withReg a fun ra => .next ((s.setReg ra (aluInc (s.getReg ra))).advance 1)

/-- DEC ra (42_alu.md R127). -/
def execDec (a : Byte) (s : State) : Result :=
  s.withReg a fun ra => .next ((s.setReg ra (aluDec (s.getReg ra))).advance 1)

/-- CMP ra, rb: writes the equal flag, always, and no register (42_alu.md R128). -/
def execCmp (a b : Byte) (s : State) : Result :=
  s.withRegs a b fun ra rb => .next ((s.setEqual (aluEqual (s.getReg ra) (s.getReg rb))).advance 2)

end Sys2Proof.Machine
end

