-- ==== Sys2Proof/Machine/Control.lean ====
section
/-! DEFINITION. Control transfer: CALL, RET, JMP, JEQ, JNE (spec/44_control.md R150 to R156). -/

namespace Sys2Proof.Machine

open Sys2Proof

/-- CALL ra: pushes the one-byte return address `pc + 2`, then jumps to `x[a]` as it stands after the push; the return
address is checked before the stack pointer (44_control.md R151, 60_exceptions.md R181, R187). -/
def execCall (a : Byte) (s : State) : Result :=
  s.withReg a fun ra =>
    if 255 < s.pc.toNat + 2 then s.raise .returnAddressOutOfRange
    else
      match s.spDown? with
      | some t =>
        let u := t.store t.getSp (trunc8 (s.pc.toNat + 2))
        .next (u.jump (u.getReg ra))
      | none => s.raise .stackPointerOutOfRange

/-- RET: pops one byte and jumps to it (44_control.md R152). -/
def execRet (s : State) : Result :=
  match s.spUp? with
  | some t => .next (t.jump (s.load s.getSp))
  | none => s.raise .stackPointerOutOfRange

/-- JMP ra (44_control.md R153). -/
def execJmp (a : Byte) (s : State) : Result :=
  s.withReg a fun ra => .next (s.jump (s.getReg ra))

/-- JEQ ra: `a` is checked whether or not the branch is taken (44_control.md R154). -/
def execJeq (a : Byte) (s : State) : Result :=
  s.withReg a fun ra => .next (if s.equalFlag then s.jump (s.getReg ra) else s.advance 1)

/-- JNE ra: `a` is checked whether or not the branch is taken (44_control.md R155). -/
def execJne (a : Byte) (s : State) : Result :=
  s.withReg a fun ra => .next (if s.equalFlag then s.advance 1 else s.jump (s.getReg ra))

end Sys2Proof.Machine
end

