-- ==== Sys2Proof/Machine/DataMovement.lean ====
section
/-! DEFINITION. Data movement and output: LDI, LD, PRN (spec/41_data_movement.md R110 to R112). -/

namespace Sys2Proof.Machine

open Sys2Proof

/-- LDI ra, imm: the immediate byte as it stands; only `a` is checked (41_data_movement.md R110). -/
def execLdi (a b : Byte) (s : State) : Result :=
  s.withReg a fun ra => .next ((s.setReg ra b).advance 2)

/-- LD ra, rb: a register copy, no memory access (41_data_movement.md R111). -/
def execLd (a b : Byte) (s : State) : Result :=
  s.withRegs a b fun ra rb => .next ((s.setReg ra (s.getReg rb)).advance 2)

/-- PRN ra: emits the register's 8-bit unsigned content (41_data_movement.md R112). -/
def execPrn (a : Byte) (s : State) : Result :=
  s.withReg a fun ra => .next ((s.emit (s.getReg ra)).advance 1)

end Sys2Proof.Machine
end

