-- ==== Sys2Proof/Machine/Stack.lean ====
section
/-! DEFINITION. The stack: PUSH, POP (spec/43_stack.md R140 to R143). The statements run in the order the rules write
them, each register read seeing the writes before it in the same instruction. -/

namespace Sys2Proof.Machine

open Sys2Proof

/-- PUSH ra: decrement first, then store `x[a]` as it stands after the decrement (43_stack.md R141). -/
def execPush (a : Byte) (s : State) : Result :=
  s.withReg a fun ra =>
    match s.spDown? with
    | some t => .next ((t.store t.getSp (t.getReg ra)).advance 1)
    | none => s.raise .stackPointerOutOfRange

/-- POP ra: load first, then increment `x[7]` as it stands after the load, so that the increment of `POP r7` applies to
the loaded byte (43_stack.md R142). -/
def execPop (a : Byte) (s : State) : Result :=
  s.withReg a fun ra =>
    match (s.setReg ra (s.load s.getSp)).spUp? with
    | some t => .next (t.advance 1)
    | none => s.raise .stackPointerOutOfRange

end Sys2Proof.Machine
end

