-- ==== Sys2Proof/Machine/System.lean ====
section
/-! DEFINITION. HLT and the no-operation of an unknown opcode (spec/45_system.md R165 to R168). -/

namespace Sys2Proof.Machine

open Sys2Proof

/-- HLT: the clean end of a program; nothing but RUN is written (45_system.md R165). -/
def execHlt (s : State) : Result := s.halt .hlt

/-- An unknown opcode: the default advance by `ir[7:6] + 1` and nothing else (45_system.md R167, R168). It is no row of the
opcode table, so the engine runs it beside `exec` (log 2). -/
def execUnknown (ir : Byte) (s : State) : Result := .next (s.advance (operandCount ir))

end Sys2Proof.Machine
end

