-- ==== Sys2Proof/Machine/Engine.lean ====
section
/-! DEFINITION. The fetch-decode-execute cycle of a running machine (spec/40_engine.md R90 to R95). -/

namespace Sys2Proof.Machine

open Sys2Proof

/-- Fetch: the opcode byte at `pc` and after it the operand bytes it calls for, at `pc+1` and `pc+2`, without wrap-around
(40_engine.md R91, R92). A byte whose address exceeds 255 does not exist and is missing from the list. -/
def fetch (s : State) : List Byte :=
  match s.byteAt? s.pc.toNat with
  | none => []
  | some ir => ir :: (List.range (operandsFetched ir)).filterMap fun k => s.byteAt? (s.pc.toNat + 1 + k)

/-- One cycle, in the order of 40_engine.md R90: with no opcode byte at `pc` (`pc >= 256`) the run halts; with an operand
byte missing it faults (60_exceptions.md R183); else the instruction, or the unknown opcode, is executed. -/
def cycle (s : State) : Result :=
  match decode (fetch s) with
  | .error .noOpcode => s.halt .pcPastEnd
  | .error .operandMissing => s.raise .operandFetchOutOfRange
  | .ok (.instr i) => exec i s
  | .ok (.unknown ir) => execUnknown ir s

/-- The state with bytes stored where the next cycle fetches. Should three bytes not fit between `pc` and the end of
memory, the program counter goes back to 0, and RUN becomes Running: a cycle needs both (log 7). -/
def State.placeAtFetch (s : State) (bytes : List Byte) : State :=
  let pc : PcWord := if s.pc.toNat + 3 ≤ Config.memSize then s.pc else Config.pcReset
  { s with pc := pc, run := .running, mem := s.mem.writeList pc.toNat bytes }

end Sys2Proof.Machine
end

