-- ==== Sys2Proof/Machine/Step.lean ====
section
/-! DEFINITION. One step (spec/40_engine.md R90, 10_state.md R41), and the host's placing of an instruction. -/

namespace Sys2Proof.Machine

open Sys2Proof

/-- One step: a cycle while RUN is Running; in a terminal state no step is taken (10_state.md R41). -/
def step (s : State) : Host.Outcome State Fault Refusal :=
  match s.run with
  | .running => cycle s
  | .halted cause => .fault (.coreHalted cause)
  | .faulted reason => .fault (.coreFaulted reason)

/-- The state with an instruction's bytes (bit 0 the least significant bit of the first byte, bits from `nbits` up 0)
stored where `step` fetches its next instruction. -/
def State.withFetchWord (s : State) (nbits w : Nat) : State := s.placeAtFetch (tableBytes nbits w)

end Sys2Proof.Machine
end

