-- ==== Sys2Proof/Safety.lean ====
section
/-! DEFINITION. The terms in which claims about CORE are stated: how a run ends, the invariant of the machine, frames,
what stands where the next cycle fetches, and what the spec's tables say of each instruction. -/

namespace Sys2Proof.Machine

open Sys2Proof

/-! ### The end of a run (spec/10_state.md R41) -/

/-- RUN is terminal: no further step is taken. -/
abbrev State.Ended (s : State) : Prop := s.run ≠ .running

/-- The clean end of a program. -/
abbrev State.EndedCleanly (s : State) : Prop := ∃ cause, s.run = .halted cause

/-- The run went wrong; never a clean end. -/
abbrev State.WentWrong (s : State) : Prop := ∃ reason, s.run = .faulted reason

/-! ### The invariant -/

/-- What holds in every state a run reaches: memory is in its canonical form, `pc` is in 0 to 257 (40_engine.md R97), and
the seven unused bits of FL read 0 (10_state.md R37). -/
structure State.Inv (s : State) : Prop where
  memCanonical : s.mem.wf
  pcInRange : s.pc.toNat ≤ 257
  unusedFlagsZero : ∀ k, k < 8 → k ≠ Config.equalBit → s.fl.getLsbD k = false

/-! ### Frames -/

/-- Every register but those listed is as before. -/
abbrev SameRegsBut (s t : State) (written : List RegIx) : Prop := ∀ r, r ∉ written → t.getReg r = s.getReg r

/-- Every byte of memory is as before. -/
abbrev SameMem (s t : State) : Prop := ∀ a : Nat, t.mem.read a = s.mem.read a

/-- Every byte of memory but the one at address `p` is as before. -/
abbrev SameMemBut (s t : State) (p : Nat) : Prop := ∀ a : Nat, a ≠ p → t.mem.read a = s.mem.read a

/-! ### What stands where the next cycle fetches -/

/-- The bytes of a list stand at `pc`, `pc+1`, …, all of them at addresses up to 255. -/
abbrev State.BytesAtPc (s : State) (bytes : List Byte) : Prop :=
  ∀ k, (h : k < bytes.length) → s.pc.toNat + k ≤ 255 ∧ s.mem.read (s.pc.toNat + k) = bytes[k]

/-- The opcode byte `ir` stands at `pc`, which is in 0 to 255. -/
abbrev State.OpcodeAtPc (s : State) (ir : Byte) : Prop := s.pc.toNat ≤ 255 ∧ s.mem.read s.pc.toNat = ir

/-- Wherever the opcode byte `ir` stands at or above address `p`, its operands lie past the end of memory and a running
machine faults, with no other change (60_exceptions.md R183). -/
abbrev OperandFetchFaultsFrom (ir : Byte) (p : Nat) : Prop :=
  ∀ s : State, s.run = .running → s.OpcodeAtPc ir → p ≤ s.pc.toNat →
    step s = .next { s with run := .faulted .operandFetchOutOfRange }

/-- A register operand above 7 faults, with no other change (60_exceptions.md R184). -/
abbrev BadRegisterFaults (mk : Byte → Instr) : Prop :=
  ∀ (s : State) (a : Byte), 7 < a.toNat → exec (mk a) s = .next { s with run := .faulted .registerIndexOutOfRange }

/-- Either register operand above 7 faults, with no other change (60_exceptions.md R184). -/
abbrev BadRegistersFault (mk : Byte → Byte → Instr) : Prop :=
  ∀ (s : State) (a b : Byte), 7 < a.toNat ∨ 7 < b.toNat →
    exec (mk a b) s = .next { s with run := .faulted .registerIndexOutOfRange }

/-! ### What the spec's lists say of each instruction -/

/-- The register of an operand byte that is at most 7. -/
def operandReg (a : Byte) : RegIx := Fin.ofNat 8 a.toNat

/-- The registers an instruction may write (10_state.md R22). -/
def regsWritten : Instr → List RegIx
  | .ldi a _ | .ld a _ | .add a _ | .mul a _ | .and a _ | .mod a _ | .div a _ => [operandReg a]
  | .inc a | .dec a => [operandReg a]
  | .pop a => [operandReg a, 7]
  | .push _ | .call _ | .ret => [7]
  | .hlt | .prn _ | .jmp _ | .jeq _ | .jne _ | .cmp _ _ => []

/-- The values a well-formed instruction appends to OUT (10_state.md R44). -/
def emitted (s : State) : Instr → List Byte
  | .prn a => [s.getReg (operandReg a)]
  | .mul a b => [s.getReg (operandReg a) * s.getReg (operandReg b)]
  | _ => []

/-- The run ends as `e` when a condition holds, else it goes on. -/
def endsIf (cond : Bool) (e : RunState) : RunState := if cond then e else .running

/-- What POP increments: the stack pointer, or the byte it has just loaded when it loads into the stack pointer
(43_stack.md R142). -/
def popBase (s : State) (r : RegIx) : Byte := if r = 7 then s.mem.read (s.getReg 7).toNat else s.getReg 7

/-- RUN after CALL: the return address first, then the stack pointer (44_control.md R151). -/
def callRun (s : State) : RunState :=
  if 255 < s.pc.toNat + 2 then .faulted .returnAddressOutOfRange
  else endsIf (s.getReg 7 == 0#8) (.faulted .stackPointerOutOfRange)

/-- RUN after a well-formed instruction that began in Running: the instruction's own condition, entry (4) of the priority
list (60_exceptions.md R181, R176). -/
def ownRun (s : State) : Instr → RunState
  | .hlt => .halted .hlt
  | .div _ b => endsIf (s.getReg (operandReg b) == 0#8) (.halted .divideByZero)
  | .mod _ b => endsIf (s.getReg (operandReg b) == 0#8) (.faulted .moduloByZero)
  | .push _ => endsIf (s.getReg 7 == 0#8) (.faulted .stackPointerOutOfRange)
  | .pop a => endsIf (popBase s (operandReg a) == 255#8) (.faulted .stackPointerOutOfRange)
  | .ret => endsIf (s.getReg 7 == 255#8) (.faulted .stackPointerOutOfRange)
  | .call _ => callRun s
  | .prn _ | .jmp _ | .jeq _ | .jne _ | .inc _ | .dec _ | .ldi _ _ | .ld _ _ | .add _ _ | .mul _ _ | .cmp _ _
  | .and _ _ => .running

/-- The program counter after an instruction that completes: the explicit target of CALL, RET, JMP and of JEQ, JNE when
taken, else the default advance by the operand count plus one (40_engine.md R95). -/
def nextPc (s : State) (i : Instr) : Nat :=
  match i with
  | .call a => (if operandReg a = 7 then s.getReg 7 - 1#8 else s.getReg (operandReg a)).toNat
  | .ret => (s.mem.read (s.getReg 7).toNat).toNat
  | .jmp a => (s.getReg (operandReg a)).toNat
  | .jeq a => if s.equalFlag then (s.getReg (operandReg a)).toNat else s.pc.toNat + 2
  | .jne a => if s.equalFlag then s.pc.toNat + 2 else (s.getReg (operandReg a)).toNat
  | _ => s.pc.toNat + i.opcode.toNat / 64 + 1

/-- The instructions of a list, executed one after another with no other instruction between them. -/
def execList : List Instr → State → Result
  | [], s => .next s
  | i :: rest, s =>
    match exec i s with
    | .next t => execList rest t
    | .fault r => .fault r
    | .refused r => .refused r

end Sys2Proof.Machine
end

