-- ==== Sys2Proof/Certificates/Slice0/Obligations.lean ====
section
/-! DEFINITION. The statements about CORE, made from the numbered rules of spec/. Register operands are written
`regByte r`, which is every operand byte that names a register; operand bytes above 7 have clauses of their own.
Where a clause follows a decision the spec marks as its own (spec/92_eei_decisions.md), the docstring names it as D<n>;
every opcode byte below is decision D2 (log 6), the bits' width D1. -/

open Sys2Proof Sys2Proof.Machine

/-! ### Reset, loading, the end of a run -/

/-- 10_state.md R46. The zeros of `x[0..6]` and FL and the empty OUT are the spec's own decisions D11 (log 3)
and D15. -/
def Obligations.ResetGivesEveryPieceOfStateItsValue : Prop :=
  (∀ r : RegIx, r ≠ 7 → State.reset.getReg r = 0#8) ∧ State.reset.getReg 7 = 244#8 ∧ State.reset.pc = 0#9 ∧
  State.reset.fl = 0#8 ∧ State.reset.run = .running ∧ (∀ a : Nat, State.reset.mem.read a = 0#8) ∧ State.reset.out = []

/-- 70_reset_and_hazards.md R203. An image of at most 256 bytes goes to addresses 0 upward of the reset machine, the cells
above it read 0 and nothing else is touched; a longer image is refused by the loader (the spec's decision D17).
That the memory loaded is canonical is said of the model's own representation (log 10). -/
def Obligations.LoaderPlacesTheImageFromAddressZero : Prop :=
  (∀ image : List Byte, image.length ≤ 256 → ∃ t, loadImage image State.reset = .next t ∧
    (∀ i, (h : i < image.length) → t.mem.read i = image[i]) ∧ (∀ a, image.length ≤ a → t.mem.read a = 0#8) ∧
    t = { State.reset with mem := t.mem } ∧ t.mem.wf) ∧
  ∀ (image : List Byte) (s : State), 256 < image.length → loadImage image s = .refused .imageTooLong

/-- 10_state.md R41. RUN is Running after reset; in a terminal state no step is taken; a reset returns to Running, and
loading does not. -/
def Obligations.TerminalStatesTakeNoStep : Prop :=
  State.reset.run = .running ∧ (∀ s t : State, s.Ended → step s ≠ .next t) ∧
  (∀ s : State, (resetMachine s).run = .running) ∧
  ∀ (image : List Byte) (s t : State), loadImage image s = .next t → t.run = s.run

/-- 93_implementation_defined.md, end of part 1, and 40_engine.md R90. A running machine always has a next state: no
instruction, no unknown opcode and no place of `pc` stops the model. -/
def Obligations.RunningStatesAlwaysStep : Prop :=
  ∀ s : State, s.run = .running → ∃ t, step s = .next t

/-- 60_exceptions.md R176. Each run state has its own code (the numbers are the spec's decision D16). -/
def Obligations.RunStateCodesAreTheTable : Prop :=
  (RunState.running.code = 0 ∧ (RunState.halted .hlt).code = 1 ∧ (RunState.halted .divideByZero).code = 2 ∧
    (RunState.halted .pcPastEnd).code = 3 ∧ (RunState.faulted .operandFetchOutOfRange).code = 16 ∧
    (RunState.faulted .registerIndexOutOfRange).code = 17 ∧ (RunState.faulted .moduloByZero).code = 18 ∧
    (RunState.faulted .stackPointerOutOfRange).code = 19 ∧ (RunState.faulted .returnAddressOutOfRange).code = 20) ∧
  ∀ p q : RunState, p.code = q.code → p = q

/-! ### The invariant -/

/-- The invariant holds at reset and in every launch state the loader makes. Its canonical form of memory is the model's
own choice (log 10); the zero bits of FL at reset are the spec's decision D11 (log 3). -/
def Obligations.LaunchStatesMeetTheInvariant : Prop :=
  State.reset.Inv ∧ ∀ (image : List Byte) (t : State), loadImage image State.reset = .next t → t.Inv

/-- Every step keeps the invariant: memory stays canonical (the form is the model's own choice, log 10), `pc`
stays in 0 to 257 (40_engine.md R97), the seven unused bits of FL stay 0 (10_state.md R37). -/
def Obligations.StepKeepsTheInvariant : Prop :=
  ∀ s t : State, s.Inv → step s = .next t → t.Inv

/-- Canonical memories that read alike are the same list. The canonical form is the model's own choice (log 10). -/
def Obligations.CanonicalMemoriesThatReadAlikeAreEqual : Prop :=
  ∀ m m' : Memory, m.wf → m'.wf → (∀ a, m.read a = m'.read a) → m = m'

/-! ### Encoding -/

/-- A word of every family, written out bit by bit from the opcode map of 30_encoding.md section 3 (decision D2),
decodes to the instruction it stands for. -/
def Obligations.InstructionWordsDecodeAsTheOpcodeMapSays : Prop :=
  decode [0b00000001#8] = .ok (.instr .hlt) ∧ decode [0b00010001#8] = .ok (.instr .ret) ∧
  decode [0b01000101#8, 0b00000001#8] = .ok (.instr (.push 1#8)) ∧
  decode [0b01010000#8, 0b00000010#8] = .ok (.instr (.call 2#8)) ∧
  decode [0b01100110#8, 0b00000011#8] = .ok (.instr (.dec 3#8)) ∧
  decode [0b10000010#8, 0b00000000#8, 0b11111111#8] = .ok (.instr (.ldi 0#8 255#8)) ∧
  decode [0b10100011#8, 0b00000001#8, 0b00000010#8] = .ok (.instr (.div 1#8 2#8)) ∧
  decode [0b10101000#8, 0b00000110#8, 0b00000101#8] = .ok (.instr (.and 6#8 5#8))

/-- Decoding answers an instruction exactly on the lists of bytes that begin with its encoding, for every instruction and
every value of its operand bytes. -/
def Obligations.DecodeAnswersExactlyTheEncodedInstruction : Prop :=
  ∀ (bytes : List Byte) (i : Instr), decode bytes = .ok (.instr i) ↔ ∃ rest, bytes = encode i ++ rest

/-- 30_encoding.md R79: the two top bits of an opcode byte count the operand bytes, the nineteen bytes are distinct, and
the source's worked program is 12 bytes long. -/
def Obligations.OpcodeBitsCountTheOperands : Prop :=
  (∀ i : Instr, i.opcode.toNat / 64 = i.operands.length) ∧
  (opcodeTable.length = 19 ∧ (opcodeTable.map (·.opcode)).Nodup ∧ ∀ i : Instr, i.opcode ∈ opcodeTable.map (·.opcode)) ∧
  (encode (.ldi 0 5) ++ encode (.ldi 1 3) ++ encode (.add 0 1) ++ encode (.prn 0) ++ encode .hlt).length = 12

/-- 30_encoding.md R81: an opcode byte outside the map, with the operand bytes it calls for, is an unknown opcode and never
an instruction; there are 237 of them. -/
def Obligations.OtherOpcodeBytesAreUnknownNotIllegal : Prop :=
  (∀ (ir : Byte) (operands : List Byte), (∀ i : Instr, i.opcode ≠ ir) → min (ir.toNat / 64) 2 ≤ operands.length →
    decode (ir :: operands) = .ok (.unknown ir)) ∧
  ((List.range 256).filter fun k => decide (decode [BitVec.ofNat 8 k, 0, 0] = .ok (.unknown (BitVec.ofNat 8 k)))).length
    = 237

/-! ### The cycle -/

/-- When the bytes of an instruction stand at `pc`, one step of a running machine is that instruction's
meaning; the step adds nothing around it. -/
def Obligations.StepRunsTheDecodedInstruction : Prop :=
  ∀ (s : State) (i : Instr), s.run = .running → s.BytesAtPc (encode i) → step s = exec i s

/-- 45_system.md R167, R168. An unknown opcode with its fetched operands in memory advances `pc` by its top two bits plus
one and changes nothing else; at most two operand bytes need be there (for a count of 3 the spec's decision D14). With one
of them past address 255 it faults (D4). -/
def Obligations.UnknownOpcodeOnlyAdvances : Prop :=
  ∀ (s : State) (ir : Byte), s.run = .running → s.OpcodeAtPc ir → (∀ i : Instr, i.opcode ≠ ir) →
    (s.pc.toNat + min (ir.toNat / 64) 2 ≤ 255 →
      ∃ t, step s = .next t ∧ t = { s with pc := t.pc } ∧ t.pc.toNat = s.pc.toNat + ir.toNat / 64 + 1) ∧
    (255 < s.pc.toNat + min (ir.toNat / 64) 2 → step s = .next { s with run := .faulted .operandFetchOutOfRange })

/-- 60_exceptions.md R178. A step that begins with `pc >= 256` halts with PcPastEnd before any fetch, and no other step
does; a jump, a call or a return never leaves such a `pc` (the spec's decision D3). -/
def Obligations.PcPastEndHaltsExactlyThere : Prop :=
  (∀ s : State, s.run = .running → 256 ≤ s.pc.toNat → step s = .next { s with run := .halted .pcPastEnd }) ∧
  (∀ s t : State, step s = .next t → t.run = .halted .pcPastEnd → 256 ≤ s.pc.toNat) ∧
  ∀ (s t : State) (a : Byte) (i : Instr), i = .ret ∨ i = .call a ∨ i = .jmp a ∨ (i = .jeq a ∧ s.equalFlag = true) ∨
    (i = .jne a ∧ s.equalFlag = false) → s.run = .running → exec i s = .next t → t.run = .running → t.pc.toNat ≤ 255

/-- 60_exceptions.md R183. The operand fetch faults exactly when an operand address to be read exceeds 255, for known and
unknown opcodes alike; the address does not wrap (the spec's decision D4). -/
def Obligations.OperandFetchFaultsExactlyPastMemory : Prop :=
  ∀ (s : State) (ir : Byte), s.run = .running → s.OpcodeAtPc ir →
    (step s = .next { s with run := .faulted .operandFetchOutOfRange } ↔
      (s.pc.toNat = 255 ∧ 1 ≤ ir.toNat / 64) ∨ (s.pc.toNat = 254 ∧ 2 ≤ ir.toNat / 64))

/-- 60_exceptions.md R184. The register check, instruction by instruction: `a` of the formats R and RI, `a` or `b` of
format RR; LDI's immediate is never checked, and no instruction whose register operands are at most 7 raises it (the
spec's decision D5). -/
def Obligations.RegisterOperandsAboveSevenFault : Prop :=
  (BadRegisterFaults .prn ∧ BadRegisterFaults .push ∧ BadRegisterFaults .pop ∧ BadRegisterFaults .call ∧
    BadRegisterFaults .jmp ∧ BadRegisterFaults .jeq ∧ BadRegisterFaults .jne ∧ BadRegisterFaults .inc ∧
    BadRegisterFaults .dec ∧ ∀ b, BadRegisterFaults fun a => .ldi a b) ∧
  (BadRegistersFault .ld ∧ BadRegistersFault .add ∧ BadRegistersFault .mul ∧ BadRegistersFault .and ∧
    BadRegistersFault .mod ∧ BadRegistersFault .div ∧ BadRegistersFault .cmp) ∧
  ∀ (i : Instr) (s t : State), i.WellFormed → s.run = .running → exec i s = .next t →
    t.run ≠ .faulted .registerIndexOutOfRange

/-- 40_engine.md R99, 60_exceptions.md R180. A step that halts or faults changes RUN and nothing else: registers, `pc`,
flags, memory and output are as the step before left them (the spec's decision D13). -/
def Obligations.EndingStepsChangeOnlyTheRunState : Prop :=
  ∀ s t : State, step s = .next t → t.Ended → t = { s with run := t.run }

/-- 60_exceptions.md R181. RUN after a step is given by the first condition of the priority list that holds: PcPastEnd,
operand fetch, register index, the instruction's own condition; an unknown opcode has no condition of its own (the spec's
decision D26). -/
def Obligations.RunAfterAStepFollowsThePriorityList : Prop :=
  ∀ s t : State, step s = .next t →
    (256 ≤ s.pc.toNat → t.run = .halted .pcPastEnd) ∧
    (∀ ir : Byte, s.OpcodeAtPc ir →
      (255 < s.pc.toNat + min (ir.toNat / 64) 2 → t.run = .faulted .operandFetchOutOfRange) ∧
      (s.pc.toNat + min (ir.toNat / 64) 2 ≤ 255 → (∀ i : Instr, i.opcode ≠ ir) → t.run = .running)) ∧
    (∀ i : Instr, s.BytesAtPc (encode i) →
      t.run = if i.wellFormed then ownRun s i else .faulted .registerIndexOutOfRange)

/-- From 40_engine.md R95 and 10_state.md R32: an instruction that completes writes `pc` on exactly one track, the explicit
target of CALL, RET, JMP and of JEQ or JNE when taken, else the default advance without wrap-around; an unknown opcode
always advances. That an instruction which halts or faults leaves `pc` alone is R99, the spec's decision D13. -/
def Obligations.CompletedInstructionsLeavePcOnOneTrack : Prop :=
  (∀ (i : Instr) (s t : State), s.run = .running → s.pc.toNat ≤ 255 → exec i s = .next t → t.run = .running →
    t.pc.toNat = nextPc s i) ∧
  (∀ (ir : Byte) (s t : State), s.pc.toNat ≤ 255 → execUnknown ir s = .next t →
    t.pc.toNat = s.pc.toNat + ir.toNat / 64 + 1) ∧
  ∀ (i : Instr) (s t : State), s.run = .running → exec i s = .next t → t.Ended → t.pc = s.pc

/-! ### Frames of the whole machine -/

/-- 10_state.md R22. No instruction writes a register other than its destination and, for PUSH, POP, CALL and RET, the
stack pointer; HLT, PRN, JMP, JEQ, JNE, CMP and unknown opcodes write none. -/
def Obligations.OnlyDestinationRegistersChange : Prop :=
  (∀ (i : Instr) (s t : State), exec i s = .next t → SameRegsBut s t (regsWritten i)) ∧
  ∀ (ir : Byte) (s t : State), execUnknown ir s = .next t → SameRegsBut s t []

/-- 10_state.md R36, R37. A step that changes FL executes CMP, and only the equal flag changes; the other seven bits are
never written. -/
def Obligations.OnlyCmpChangesTheFlagRegister : Prop :=
  ∀ s t : State, step s = .next t →
    (t.fl = s.fl ∨ ∃ ra rb : RegIx, s.BytesAtPc (encode (.cmp (regByte ra) (regByte rb))) ∧
      t.equalFlag = (s.getReg ra == s.getReg rb)) ∧
    ∀ k, 1 ≤ k → k ≤ 7 → t.fl.getLsbD k = s.fl.getLsbD k

/-- 10_state.md R36. The equal flag is read by JEQ and JNE and by nothing else: two states that differ only in FL go to
states that differ only in FL; CMP moreover does not depend on the equal flag it overwrites. -/
def Obligations.OnlyBranchesDependOnTheEqualFlag : Prop :=
  (∀ (i : Instr) (s t : State) (f : Byte), (∀ a, i ≠ .jeq a) → (∀ a, i ≠ .jne a) → (∀ a b, i ≠ .cmp a b) →
    exec i s = .next t → exec i { s with fl := f } = .next { t with fl := f }) ∧
  ∀ (ra rb : RegIx) (s : State) (e : Bool),
    exec (.cmp (regByte ra) (regByte rb)) (s.setEqual e) = exec (.cmp (regByte ra) (regByte rb)) s

/-- 20_memory.md R52. Memory is written by PUSH and CALL alone, one byte each, at the stack pointer minus one; every other
step, and every step that halts or faults, leaves every byte as it was. -/
def Obligations.OnlyPushAndCallWriteMemory : Prop :=
  ∀ s t : State, step s = .next t → SameMem s t ∨
    (t.run = .running ∧ SameMemBut s t s.pushAddr.toNat ∧ s.pushAddr.toNat + 1 = (s.getReg 7).toNat ∧
      ∃ ra : RegIx, s.BytesAtPc (encode (.push (regByte ra))) ∨ s.BytesAtPc (encode (.call (regByte ra))))

/-- 10_state.md R44. OUT is empty at reset; PRN appends the register's content and MUL the product, one value each; nothing
else appends, nothing removes, and nothing reads: with more values emitted before, an instruction does the same (the port's shape is the
spec's decision D15). -/
def Obligations.OnlyPrnAndMulAppendToTheOutput : Prop :=
  State.reset.out = [] ∧
  (∀ (i : Instr) (s t : State), i.WellFormed → exec i s = .next t → t.out = s.out ++ emitted s i) ∧
  (∀ (i : Instr) (s t : State), ¬ i.WellFormed → exec i s = .next t → t.out = s.out) ∧
  (∀ (i : Instr) (s t : State) (o : List Byte), exec i s = .next t →
    exec i { s with out := o ++ s.out } = .next { t with out := o ++ t.out }) ∧
  ∀ (ir : Byte) (s t : State), execUnknown ir s = .next t → t.out = s.out

/-! ### Data movement and output -/

/-- 41_data_movement.md R110. LDI: the immediate as it stands; `b` is never checked. -/
def Obligations.LdiLoadsTheImmediate : Prop :=
  (∀ a b : Byte, encode (.ldi a b) = [0x82#8, a, b]) ∧ OperandFetchFaultsFrom 0x82#8 254 ∧
  (∀ b, BadRegisterFaults fun a => .ldi a b) ∧
  ∀ (s : State) (ra : RegIx) (b : Byte), ∃ t, exec (.ldi (regByte ra) b) s = .next t ∧
    t.getReg ra = b ∧ SameRegsBut s t [ra] ∧ t.pc = s.pc + 3 ∧ t.fl = s.fl ∧ SameMem s t ∧ t.out = s.out ∧ t.run = s.run

/-- 41_data_movement.md R111. LD: a register copy; no memory access. -/
def Obligations.LdCopiesARegister : Prop :=
  (∀ a b : Byte, encode (.ld a b) = [0x83#8, a, b]) ∧ OperandFetchFaultsFrom 0x83#8 254 ∧ BadRegistersFault .ld ∧
  ∀ (s : State) (ra rb : RegIx), ∃ t, exec (.ld (regByte ra) (regByte rb)) s = .next t ∧
    t.getReg ra = s.getReg rb ∧ SameRegsBut s t [ra] ∧ t.pc = s.pc + 3 ∧ t.fl = s.fl ∧ SameMem s t ∧ t.out = s.out ∧
    t.run = s.run

/-- 41_data_movement.md R112. PRN: the register's 8-bit content is appended to OUT. -/
def Obligations.PrnEmitsTheRegister : Prop :=
  (∀ a : Byte, encode (.prn a) = [0x47#8, a]) ∧ OperandFetchFaultsFrom 0x47#8 255 ∧ BadRegisterFaults .prn ∧
  ∀ (s : State) (ra : RegIx), ∃ t, exec (.prn (regByte ra)) s = .next t ∧
    t.out = s.out ++ [s.getReg ra] ∧ SameRegsBut s t [] ∧ t.pc = s.pc + 2 ∧ t.fl = s.fl ∧ SameMem s t ∧ t.run = s.run

/-- From 41_data_movement.md R110 and R112: a program of LDI and PRN pairs outputs the values loaded, in order. -/
def Obligations.LdiPrnPairsOutputTheValuesLoaded : Prop :=
  ∀ (vs : List (RegIx × Byte)) (s : State),
    ∃ t, execList (vs.flatMap fun p => [.ldi (regByte p.1) p.2, .prn (regByte p.1)]) s = .next t ∧
      t.out = s.out ++ vs.map (·.2) ∧ t.fl = s.fl ∧ SameMem s t ∧ t.run = s.run ∧
      t.pc = s.pc + BitVec.ofNat 9 (5 * vs.length)

/-! ### The ALU -/

/-- 42_alu.md R121. ADD: the sum modulo 256; no flag. -/
def Obligations.AddWritesTheSumModulo256 : Prop :=
  (∀ a b : Byte, encode (.add a b) = [0xA0#8, a, b]) ∧ OperandFetchFaultsFrom 0xA0#8 254 ∧ BadRegistersFault .add ∧
  ∀ (s : State) (ra rb : RegIx), ∃ t, exec (.add (regByte ra) (regByte rb)) s = .next t ∧
    (t.getReg ra).toNat = ((s.getReg ra).toNat + (s.getReg rb).toNat) % 256 ∧ SameRegsBut s t [ra] ∧
    t.pc = s.pc + 3 ∧ t.fl = s.fl ∧ SameMem s t ∧ t.out = s.out ∧ t.run = s.run

/-- 42_alu.md R122. MUL: the product modulo 256, written and emitted. -/
def Obligations.MulWritesAndEmitsTheProductModulo256 : Prop :=
  (∀ a b : Byte, encode (.mul a b) = [0xA2#8, a, b]) ∧ OperandFetchFaultsFrom 0xA2#8 254 ∧ BadRegistersFault .mul ∧
  ∀ (s : State) (ra rb : RegIx), ∃ t, exec (.mul (regByte ra) (regByte rb)) s = .next t ∧
    (t.getReg ra).toNat = ((s.getReg ra).toNat * (s.getReg rb).toNat) % 256 ∧ t.out = s.out ++ [t.getReg ra] ∧
    SameRegsBut s t [ra] ∧ t.pc = s.pc + 3 ∧ t.fl = s.fl ∧ SameMem s t ∧ t.run = s.run

/-- 42_alu.md R123. AND: bit by bit; no flag. -/
def Obligations.AndWritesTheBitwiseConjunction : Prop :=
  (∀ a b : Byte, encode (.and a b) = [0xA8#8, a, b]) ∧ OperandFetchFaultsFrom 0xA8#8 254 ∧ BadRegistersFault .and ∧
  ∀ (s : State) (ra rb : RegIx), ∃ t, exec (.and (regByte ra) (regByte rb)) s = .next t ∧
    (∀ k, k < 8 → (t.getReg ra).getLsbD k = ((s.getReg ra).getLsbD k && (s.getReg rb).getLsbD k)) ∧
    SameRegsBut s t [ra] ∧ t.pc = s.pc + 3 ∧ t.fl = s.fl ∧ SameMem s t ∧ t.out = s.out ∧ t.run = s.run

/-- 42_alu.md R124. MOD: the unsigned remainder; a zero divisor faults (the spec's decision D6). -/
def Obligations.ModWritesTheRemainderOrFaults : Prop :=
  (∀ a b : Byte, encode (.mod a b) = [0xA4#8, a, b]) ∧ OperandFetchFaultsFrom 0xA4#8 254 ∧ BadRegistersFault .mod ∧
  (∀ (s : State) (ra rb : RegIx), s.getReg rb ≠ 0#8 → ∃ t, exec (.mod (regByte ra) (regByte rb)) s = .next t ∧
    (t.getReg ra).toNat = (s.getReg ra).toNat % (s.getReg rb).toNat ∧ SameRegsBut s t [ra] ∧ t.pc = s.pc + 3 ∧
    t.fl = s.fl ∧ SameMem s t ∧ t.out = s.out ∧ t.run = s.run) ∧
  ∀ (s : State) (ra rb : RegIx), s.getReg rb = 0#8 →
    exec (.mod (regByte ra) (regByte rb)) s = .next { s with run := .faulted .moduloByZero }

/-- 42_alu.md R125. DIV: the unsigned floor quotient; a zero divisor halts cleanly. -/
def Obligations.DivWritesTheQuotientOrHalts : Prop :=
  (∀ a b : Byte, encode (.div a b) = [0xA3#8, a, b]) ∧ OperandFetchFaultsFrom 0xA3#8 254 ∧ BadRegistersFault .div ∧
  (∀ (s : State) (ra rb : RegIx), s.getReg rb ≠ 0#8 → ∃ t, exec (.div (regByte ra) (regByte rb)) s = .next t ∧
    (t.getReg ra).toNat = (s.getReg ra).toNat / (s.getReg rb).toNat ∧ SameRegsBut s t [ra] ∧ t.pc = s.pc + 3 ∧
    t.fl = s.fl ∧ SameMem s t ∧ t.out = s.out ∧ t.run = s.run) ∧
  ∀ (s : State) (ra rb : RegIx), s.getReg rb = 0#8 →
    exec (.div (regByte ra) (regByte rb)) s = .next { s with run := .halted .divideByZero }

/-- 42_alu.md R126. INC: plus one, 255 becoming 0; no stack-range check for r7. -/
def Obligations.IncAddsOneModulo256 : Prop :=
  (∀ a : Byte, encode (.inc a) = [0x65#8, a]) ∧ OperandFetchFaultsFrom 0x65#8 255 ∧ BadRegisterFaults .inc ∧
  ∀ (s : State) (ra : RegIx), ∃ t, exec (.inc (regByte ra)) s = .next t ∧
    (t.getReg ra).toNat = ((s.getReg ra).toNat + 1) % 256 ∧ SameRegsBut s t [ra] ∧ t.pc = s.pc + 2 ∧ t.fl = s.fl ∧
    SameMem s t ∧ t.out = s.out ∧ t.run = s.run

/-- 42_alu.md R127. DEC: minus one, 0 becoming 255; no flag, no stack-range check for r7. -/
def Obligations.DecSubtractsOneModulo256 : Prop :=
  (∀ a : Byte, encode (.dec a) = [0x66#8, a]) ∧ OperandFetchFaultsFrom 0x66#8 255 ∧ BadRegisterFaults .dec ∧
  ∀ (s : State) (ra : RegIx), ∃ t, exec (.dec (regByte ra)) s = .next t ∧
    ((t.getReg ra).toNat : Int) = ((s.getReg ra).toNat - 1 : Int) % 256 ∧ SameRegsBut s t [ra] ∧ t.pc = s.pc + 2 ∧
    t.fl = s.fl ∧ SameMem s t ∧ t.out = s.out ∧ t.run = s.run

/-- 42_alu.md R128. CMP: the equal flag, set on equality and cleared on inequality; no other bit of FL, no register. -/
def Obligations.CmpWritesTheEqualFlag : Prop :=
  (∀ a b : Byte, encode (.cmp a b) = [0xA7#8, a, b]) ∧ OperandFetchFaultsFrom 0xA7#8 254 ∧ BadRegistersFault .cmp ∧
  ∀ (s : State) (ra rb : RegIx), ∃ t, exec (.cmp (regByte ra) (regByte rb)) s = .next t ∧
    (t.equalFlag = true ↔ s.getReg ra = s.getReg rb) ∧
    (∀ k, 1 ≤ k → k ≤ 7 → t.fl.getLsbD k = s.fl.getLsbD k) ∧ SameRegsBut s t [] ∧ t.pc = s.pc + 3 ∧ SameMem s t ∧
    t.out = s.out ∧ t.run = s.run

/-- 42_alu.md R131. Quotient and remainder of the same operands fit together: `x = (x div y) * y + (x rem y)`
(the integer quotient is the spec's decision D7). -/
def Obligations.DivAndModFitTogether : Prop :=
  ∀ (s : State) (ra rb : RegIx), s.getReg rb ≠ 0#8 →
    ∃ q r, exec (.div (regByte ra) (regByte rb)) s = .next q ∧ exec (.mod (regByte ra) (regByte rb)) s = .next r ∧
      (s.getReg ra).toNat = (q.getReg ra).toNat * (s.getReg rb).toNat + (r.getReg ra).toNat ∧
      (r.getReg ra).toNat < (s.getReg rb).toNat

/-- 42_alu.md R129. The low 8 bits of ADD, MUL, INC and DEC are the same when the operands are read as two's-complement
signed bytes (the 8-bit width is the spec's decision D1). -/
def Obligations.AluResultsAreTheSameReadSigned : Prop :=
  ∀ x y : Byte, aluAdd x y = trunc8 (x.toInt + y.toInt) ∧ aluMul x y = trunc8 (x.toInt * y.toInt) ∧
    aluInc x = trunc8 (x.toInt + 1) ∧ aluDec x = trunc8 (x.toInt - 1)

/-- From 42_alu.md R129 to R131: where no sum or product exceeds 255, DEC is not applied to 0 and DIV divides exactly, the
8-bit results are those of unbounded arithmetic (decisions D1 and D7). -/
def Obligations.InRangeResultsAreUnbounded : Prop :=
  ∀ x y : Byte,
    (x.toNat + y.toNat ≤ 255 → (aluAdd x y).toNat = x.toNat + y.toNat) ∧
    (x.toNat * y.toNat ≤ 255 → (aluMul x y).toNat = x.toNat * y.toNat) ∧
    (x.toNat + 1 ≤ 255 → (aluInc x).toNat = x.toNat + 1) ∧
    (0 < x.toNat → (aluDec x).toNat + 1 = x.toNat) ∧
    (∀ q : Nat, 0 < y.toNat → x.toNat = q * y.toNat → ∃ v, aluDiv x y = some v ∧ v.toNat = q)

/-! ### The stack -/

/-- 43_stack.md R141. PUSH: decrement, then store the register as it stands after the decrement. -/
def Obligations.PushDecrementsThenStores : Prop :=
  (∀ a : Byte, encode (.push a) = [0x45#8, a]) ∧ OperandFetchFaultsFrom 0x45#8 255 ∧ BadRegisterFaults .push ∧
  (∀ (s : State) (ra : RegIx), s.getReg 7 ≠ 0#8 → ∃ t, exec (.push (regByte ra)) s = .next t ∧
    (t.getReg 7).toNat + 1 = (s.getReg 7).toNat ∧ t.getReg 7 = s.pushAddr ∧
    t.mem.read s.pushAddr.toNat = (if ra = 7 then s.pushAddr else s.getReg ra) ∧ SameMemBut s t s.pushAddr.toNat ∧
    SameRegsBut s t [7] ∧ t.pc = s.pc + 2 ∧ t.fl = s.fl ∧ t.out = s.out ∧ t.run = s.run) ∧
  ∀ (s : State) (ra : RegIx), s.getReg 7 = 0#8 →
    exec (.push (regByte ra)) s = .next { s with run := .faulted .stackPointerOutOfRange }

/-- 43_stack.md R142. POP: load, then increment `x[7]` as it stands after the load, so `POP r7` leaves the loaded byte plus
one; an increment from 255 faults instead. -/
def Obligations.PopLoadsThenIncrements : Prop :=
  (∀ a : Byte, encode (.pop a) = [0x46#8, a]) ∧ OperandFetchFaultsFrom 0x46#8 255 ∧ BadRegisterFaults .pop ∧
  (∀ (s : State) (ra : RegIx) (v base : Byte), v = s.mem.read (s.getReg 7).toNat →
    base = (if ra = 7 then v else s.getReg 7) → base ≠ 255#8 → ∃ t, exec (.pop (regByte ra)) s = .next t ∧
    (ra ≠ 7 → t.getReg ra = v) ∧ (t.getReg 7).toNat = base.toNat + 1 ∧ SameRegsBut s t [ra, 7] ∧ SameMem s t ∧
    t.pc = s.pc + 2 ∧ t.fl = s.fl ∧ t.out = s.out ∧ t.run = s.run) ∧
  ∀ (s : State) (ra : RegIx), (if ra = 7 then s.mem.read (s.getReg 7).toNat else s.getReg 7) = 255#8 →
    exec (.pop (regByte ra)) s = .next { s with run := .faulted .stackPointerOutOfRange }

/-- From 43_stack.md R141 and R142: PUSH then POP into a different register preserves the value and restores the stack pointer. -/
def Obligations.PopAfterPushReturnsTheValue : Prop :=
  ∀ (s : State) (ra rb : RegIx), s.getReg 7 ≠ 0#8 → ra ≠ 7 → rb ≠ 7 →
    ∃ t, execList [.push (regByte ra), .pop (regByte rb)] s = .next t ∧ t.getReg rb = s.getReg ra ∧
      t.getReg 7 = s.getReg 7 ∧ t.mem.read ((s.getReg 7).toNat - 1) = s.getReg ra ∧ SameRegsBut s t [rb] ∧
      t.pc = s.pc + 4 ∧ t.run = s.run

/-- 43_stack.md R140. The stack is full-descending: after `k` pushes the stack pointer is `k` lower and the pushed bytes
stand below its old value, the first pushed highest; cells at and above the old stack pointer are untouched. -/
def Obligations.PushesFillTheStackDownward : Prop :=
  ∀ (rs : List RegIx) (s : State), (∀ r ∈ rs, r ≠ 7) → rs.length ≤ (s.getReg 7).toNat →
    ∃ t, execList (rs.map fun r => .push (regByte r)) s = .next t ∧
      (t.getReg 7).toNat + rs.length = (s.getReg 7).toNat ∧
      (∀ k, (h : k < rs.length) → t.mem.read ((s.getReg 7).toNat - 1 - k) = s.getReg rs[k]) ∧
      (∀ a, (s.getReg 7).toNat ≤ a ∨ a < (s.getReg 7).toNat - rs.length → t.mem.read a = s.mem.read a) ∧ t.run = s.run

/-- 60_exceptions.md R186. StackPointerOutOfRange is the next run state of exactly the stack instructions whose move would
leave 0 to 255 (the spec's decision D9). -/
def Obligations.OnlyStackInstructionsRaiseTheStackFault : Prop :=
  ∀ (i : Instr) (s t : State), s.run = .running → exec i s = .next t →
    (t.run = .faulted .stackPointerOutOfRange ↔
      (∃ ra : RegIx, i = .push (regByte ra) ∧ s.getReg 7 = 0#8) ∨
      (∃ ra : RegIx, i = .call (regByte ra) ∧ s.pc.toNat + 2 ≤ 255 ∧ s.getReg 7 = 0#8) ∨
      (i = .ret ∧ s.getReg 7 = 255#8) ∨
      (∃ ra : RegIx, i = .pop (regByte ra) ∧ ra ≠ 7 ∧ s.getReg 7 = 255#8) ∨
      (i = .pop (regByte 7) ∧ s.mem.read (s.getReg 7).toNat = 255#8))

/-! ### Control transfer -/

/-- 44_control.md R151. CALL: pushes `pc + 2`, then jumps to `x[a]` as it stands after the push; the return address is
checked before the stack pointer (the spec's decisions D10 and D26). -/
def Obligations.CallPushesTheReturnAddressAndJumps : Prop :=
  (∀ a : Byte, encode (.call a) = [0x50#8, a]) ∧ OperandFetchFaultsFrom 0x50#8 255 ∧ BadRegisterFaults .call ∧
  (∀ (s : State) (ra : RegIx), s.pc.toNat + 2 ≤ 255 → s.getReg 7 ≠ 0#8 → ∃ t, exec (.call (regByte ra)) s = .next t ∧
    (t.getReg 7).toNat + 1 = (s.getReg 7).toNat ∧ t.getReg 7 = s.pushAddr ∧
    (t.mem.read s.pushAddr.toNat).toNat = s.pc.toNat + 2 ∧ SameMemBut s t s.pushAddr.toNat ∧ SameRegsBut s t [7] ∧
    t.pc.toNat = (if ra = 7 then s.pushAddr else s.getReg ra).toNat ∧ t.fl = s.fl ∧ t.out = s.out ∧ t.run = s.run) ∧
  (∀ (s : State) (ra : RegIx), 255 < s.pc.toNat + 2 →
    exec (.call (regByte ra)) s = .next { s with run := .faulted .returnAddressOutOfRange }) ∧
  ∀ (s : State) (ra : RegIx), s.pc.toNat + 2 ≤ 255 → s.getReg 7 = 0#8 →
    exec (.call (regByte ra)) s = .next { s with run := .faulted .stackPointerOutOfRange }

/-- 44_control.md R152. RET: pops one byte and jumps to it; it has no operand bytes, so a RET at any address is executed. -/
def Obligations.RetPopsTheProgramCounter : Prop :=
  encode .ret = [0x11#8] ∧ (∀ s : State, s.run = .running → s.OpcodeAtPc 0x11#8 → step s = exec .ret s) ∧
  (∀ s : State, s.getReg 7 ≠ 255#8 → ∃ t, exec .ret s = .next t ∧
    t.pc.toNat = (s.mem.read (s.getReg 7).toNat).toNat ∧ (t.getReg 7).toNat = (s.getReg 7).toNat + 1 ∧
    SameRegsBut s t [7] ∧ SameMem s t ∧ t.fl = s.fl ∧ t.out = s.out ∧ t.run = s.run) ∧
  ∀ s : State, s.getReg 7 = 255#8 → exec .ret s = .next { s with run := .faulted .stackPointerOutOfRange }

/-- 44_control.md R153. JMP: `pc` becomes the register, and nothing else changes. -/
def Obligations.JmpReplacesTheProgramCounter : Prop :=
  (∀ a : Byte, encode (.jmp a) = [0x54#8, a]) ∧ OperandFetchFaultsFrom 0x54#8 255 ∧ BadRegisterFaults .jmp ∧
  ∀ (s : State) (ra : RegIx), ∃ t, exec (.jmp (regByte ra)) s = .next t ∧ t.pc.toNat = (s.getReg ra).toNat ∧
    SameRegsBut s t [] ∧ t.fl = s.fl ∧ SameMem s t ∧ t.out = s.out ∧ t.run = s.run

/-- 44_control.md R154. JEQ: taken exactly when the equal flag is set; the flag keeps its value. -/
def Obligations.JeqJumpsWhenEqual : Prop :=
  (∀ a : Byte, encode (.jeq a) = [0x55#8, a]) ∧ OperandFetchFaultsFrom 0x55#8 255 ∧ BadRegisterFaults .jeq ∧
  ∀ (s : State) (ra : RegIx), ∃ t, exec (.jeq (regByte ra)) s = .next t ∧
    (s.equalFlag = true → t.pc.toNat = (s.getReg ra).toNat) ∧ (s.equalFlag = false → t.pc = s.pc + 2) ∧
    SameRegsBut s t [] ∧ t.fl = s.fl ∧ SameMem s t ∧ t.out = s.out ∧ t.run = s.run

/-- 44_control.md R155. JNE: taken exactly when the equal flag is clear, the complement of JEQ. -/
def Obligations.JneJumpsWhenUnequal : Prop :=
  (∀ a : Byte, encode (.jne a) = [0x56#8, a]) ∧ OperandFetchFaultsFrom 0x56#8 255 ∧ BadRegisterFaults .jne ∧
  ∀ (s : State) (ra : RegIx), ∃ t, exec (.jne (regByte ra)) s = .next t ∧
    (s.equalFlag = false → t.pc.toNat = (s.getReg ra).toNat) ∧ (s.equalFlag = true → t.pc = s.pc + 2) ∧
    SameRegsBut s t [] ∧ t.fl = s.fl ∧ SameMem s t ∧ t.out = s.out ∧ t.run = s.run

/-- From 42_alu.md R128 and 44_control.md R154, R155: after CMP of equal operands JEQ is taken and JNE falls through; after
unequal operands the reverse. -/
def Obligations.BranchAfterCmpFollowsTheComparison : Prop :=
  ∀ (s : State) (ra rb rc : RegIx),
    ∃ t u, execList [.cmp (regByte ra) (regByte rb), .jeq (regByte rc)] s = .next t ∧
      execList [.cmp (regByte ra) (regByte rb), .jne (regByte rc)] s = .next u ∧
      (s.getReg ra = s.getReg rb → t.pc.toNat = (s.getReg rc).toNat ∧ u.pc = s.pc + 5) ∧
      (s.getReg ra ≠ s.getReg rb → t.pc = s.pc + 5 ∧ u.pc.toNat = (s.getReg rc).toNat)

/-- From 44_control.md R151 and R152: a subroutine that leaves the stack pointer and the return byte as it found them
returns to the instruction after the CALL, its registers as it left them. -/
def Obligations.RetReturnsBehindTheCall : Prop :=
  ∀ (s t u : State) (ra : RegIx), s.pc.toNat + 2 ≤ 255 → s.getReg 7 ≠ 0#8 → exec (.call (regByte ra)) s = .next t →
    u.getReg 7 = t.getReg 7 → u.mem.read (t.getReg 7).toNat = t.mem.read (t.getReg 7).toNat →
    ∃ v, exec .ret u = .next v ∧ v.pc.toNat = s.pc.toNat + 2 ∧ v.getReg 7 = s.getReg 7 ∧ SameRegsBut u v [7] ∧
      SameMem u v ∧ v.out = u.out

/-! ### System -/

/-- 45_system.md R165. HLT: RUN becomes Halted(Hlt) and nothing else changes, `pc` included; a HLT at any address, 255 too,
halts and cannot fault. -/
def Obligations.HltHaltsAndChangesNothingElse : Prop :=
  encode .hlt = [0x01#8] ∧ (∀ s : State, exec .hlt s = .next { s with run := .halted .hlt }) ∧
  ∀ s : State, s.run = .running → s.OpcodeAtPc 0x01#8 → step s = .next { s with run := .halted .hlt }

/-- 60_exceptions.md R177. Halted(Hlt) is raised by HLT and only by HLT. -/
def Obligations.OnlyHltHaltsWithHlt : Prop :=
  ∀ s t : State, step s = .next t → (t.run = .halted .hlt ↔ s.OpcodeAtPc 0x01#8)

/-! ### Code and data in one memory -/

/-- From 20_memory.md R50 and R59: a byte that PUSH stores where the next instruction begins is the opcode byte the very
next step fetches. -/
def Obligations.StoredByteIsFetchedByTheNextStep : Prop :=
  ∀ (s : State) (ra : RegIx), s.run = .running → s.BytesAtPc (encode (.push (regByte ra))) → s.getReg 7 ≠ 0#8 →
    s.pushAddr.toNat = s.pc.toNat + 2 →
    ∃ t, step s = .next t ∧ (fetch t).head? = some (if ra = 7 then s.pushAddr else s.getReg ra)
end

