-- ==== Sys2Proof/Laws/PerInstr.lean ====
section
/-! SUPPORT. What holds of every instruction as syntax, one lemma per constructor. -/

namespace Sys2Proof.Laws

open Sys2Proof

/-- The opcode map holds the instruction's opcode byte, in a row that builds the instruction from its operand bytes,
whatever bytes stand after them. -/
def RowBuilds.Statement (i : Instr) : Prop :=
  ∃ row, rowOf i.opcode = some row ∧ ∀ rest, row.shape.build (i.operands ++ rest) = .ok (.instr i)

theorem RowBuilds.hlt : RowBuilds.Statement .hlt := ⟨_, rfl, fun _ => rfl⟩
theorem RowBuilds.ret : RowBuilds.Statement .ret := ⟨_, rfl, fun _ => rfl⟩
theorem RowBuilds.push (a : Byte) : RowBuilds.Statement (.push a) := ⟨_, rfl, fun _ => rfl⟩
theorem RowBuilds.pop (a : Byte) : RowBuilds.Statement (.pop a) := ⟨_, rfl, fun _ => rfl⟩
theorem RowBuilds.prn (a : Byte) : RowBuilds.Statement (.prn a) := ⟨_, rfl, fun _ => rfl⟩
theorem RowBuilds.call (a : Byte) : RowBuilds.Statement (.call a) := ⟨_, rfl, fun _ => rfl⟩
theorem RowBuilds.jmp (a : Byte) : RowBuilds.Statement (.jmp a) := ⟨_, rfl, fun _ => rfl⟩
theorem RowBuilds.jeq (a : Byte) : RowBuilds.Statement (.jeq a) := ⟨_, rfl, fun _ => rfl⟩
theorem RowBuilds.jne (a : Byte) : RowBuilds.Statement (.jne a) := ⟨_, rfl, fun _ => rfl⟩
theorem RowBuilds.inc (a : Byte) : RowBuilds.Statement (.inc a) := ⟨_, rfl, fun _ => rfl⟩
theorem RowBuilds.dec (a : Byte) : RowBuilds.Statement (.dec a) := ⟨_, rfl, fun _ => rfl⟩
theorem RowBuilds.ldi (a b : Byte) : RowBuilds.Statement (.ldi a b) := ⟨_, rfl, fun _ => rfl⟩
theorem RowBuilds.ld (a b : Byte) : RowBuilds.Statement (.ld a b) := ⟨_, rfl, fun _ => rfl⟩
theorem RowBuilds.add (a b : Byte) : RowBuilds.Statement (.add a b) := ⟨_, rfl, fun _ => rfl⟩
theorem RowBuilds.mul (a b : Byte) : RowBuilds.Statement (.mul a b) := ⟨_, rfl, fun _ => rfl⟩
theorem RowBuilds.div (a b : Byte) : RowBuilds.Statement (.div a b) := ⟨_, rfl, fun _ => rfl⟩
theorem RowBuilds.mod (a b : Byte) : RowBuilds.Statement (.mod a b) := ⟨_, rfl, fun _ => rfl⟩
theorem RowBuilds.cmp (a b : Byte) : RowBuilds.Statement (.cmp a b) := ⟨_, rfl, fun _ => rfl⟩
theorem RowBuilds.and (a b : Byte) : RowBuilds.Statement (.and a b) := ⟨_, rfl, fun _ => rfl⟩

end Sys2Proof.Laws
end

