-- ==== Sys2Proof/Laws/Decode.lean ====
section
/-! SUPPORT. The decoder's steps: what an opcode byte's row is, and what decoding answers when operand bytes are missing. -/

namespace Sys2Proof

/-- Every instruction's opcode byte is in the opcode map. -/
theorem rowBuilds (i : Instr) : Laws.RowBuilds.Statement i := by
  cases i with
  | hlt => exact Laws.RowBuilds.hlt
  | ret => exact Laws.RowBuilds.ret
  | push a => exact Laws.RowBuilds.push a
  | pop a => exact Laws.RowBuilds.pop a
  | prn a => exact Laws.RowBuilds.prn a
  | call a => exact Laws.RowBuilds.call a
  | jmp a => exact Laws.RowBuilds.jmp a
  | jeq a => exact Laws.RowBuilds.jeq a
  | jne a => exact Laws.RowBuilds.jne a
  | inc a => exact Laws.RowBuilds.inc a
  | dec a => exact Laws.RowBuilds.dec a
  | ldi a b => exact Laws.RowBuilds.ldi a b
  | ld a b => exact Laws.RowBuilds.ld a b
  | add a b => exact Laws.RowBuilds.add a b
  | mul a b => exact Laws.RowBuilds.mul a b
  | div a b => exact Laws.RowBuilds.div a b
  | mod a b => exact Laws.RowBuilds.mod a b
  | cmp a b => exact Laws.RowBuilds.cmp a b
  | and a b => exact Laws.RowBuilds.and a b

@[simp] theorem decode_nil : decode [] = .error .noOpcode := rfl

theorem decode_of_row {ir : Byte} {row : OpcodeRow} (h : rowOf ir = some row) (operands : List Byte) :
    decode (ir :: operands) = row.shape.build operands := by
  simp only [decode, h]

theorem decode_unknown {ir : Byte} (h : rowOf ir = none) {operands : List Byte}
    (hl : operandsFetched ir ≤ operands.length) : decode (ir :: operands) = .ok (.unknown ir) := by
  simp only [decode, h, if_neg (Nat.not_lt.mpr hl)]

theorem decode_unknown_short {ir : Byte} (h : rowOf ir = none) {operands : List Byte}
    (hl : operands.length < operandsFetched ir) : decode (ir :: operands) = .error .operandMissing := by
  simp only [decode, h, if_pos hl]

/-- A row found in the opcode map is one of its rows and carries the byte looked up. -/
theorem rowOf_some {ir : Byte} {row : OpcodeRow} (h : rowOf ir = some row) : row ∈ opcodeTable ∧ row.opcode = ir := by
  unfold rowOf at h
  exact ⟨List.mem_of_find?_eq_some h, by simpa using List.find?_some h⟩

/-- How many operand bytes a shape takes. -/
def Shape.arity : Shape → Nat
  | .z _ => 0
  | .r _ => 1
  | .rr _ | .ri _ => 2

/-- The two top bits of each opcode byte in the map count the operands of its row (30_encoding.md R79). -/
theorem operandsFetched_of_row {ir : Byte} {row : OpcodeRow} (h : rowOf ir = some row) :
    operandsFetched ir = row.shape.arity := by
  obtain ⟨hmem, rfl⟩ := rowOf_some h
  have all : ∀ r ∈ opcodeTable, operandsFetched r.opcode = r.shape.arity := by
    simp only [opcodeTable, List.forall_mem_cons]
    decide
  exact all row hmem

/-- With too few operand bytes a shape builds nothing. -/
theorem Shape.build_short {sh : Shape} {operands : List Byte} (h : operands.length < sh.arity) :
    sh.build operands = .error .operandMissing := by
  cases sh <;> rcases operands with _ | ⟨a, _ | ⟨b, rest⟩⟩ <;> simp [Shape.arity] at h <;> rfl

/-- With enough operand bytes a shape builds an instruction. -/
theorem Shape.build_enough {sh : Shape} {operands : List Byte} (h : sh.arity ≤ operands.length) :
    ∃ i, sh.build operands = .ok (.instr i) := by
  cases sh <;> rcases operands with _ | ⟨a, _ | ⟨b, rest⟩⟩ <;> simp [Shape.arity] at h <;> exact ⟨_, rfl⟩

/-- Everything decoding a nonempty list of bytes can answer. -/
theorem decode_cons_cases (ir : Byte) (operands : List Byte) :
    (operands.length < operandsFetched ir ∧ decode (ir :: operands) = .error .operandMissing) ∨
    (operandsFetched ir ≤ operands.length ∧ rowOf ir = none ∧ decode (ir :: operands) = .ok (.unknown ir)) ∨
    (operandsFetched ir ≤ operands.length ∧ ∃ row i, rowOf ir = some row ∧ row.shape.build operands = .ok (.instr i) ∧
      decode (ir :: operands) = .ok (.instr i)) := by
  rcases hrow : rowOf ir with _ | row
  · rcases Nat.lt_or_ge operands.length (operandsFetched ir) with h | h
    · exact .inl ⟨h, decode_unknown_short hrow h⟩
    · exact .inr (.inl ⟨h, rfl, decode_unknown hrow h⟩)
  · have ha := operandsFetched_of_row hrow
    rcases Nat.lt_or_ge operands.length (operandsFetched ir) with h | h
    · exact .inl ⟨h, by rw [decode_of_row hrow, Shape.build_short (ha ▸ h)]⟩
    · obtain ⟨i, hi⟩ := Shape.build_enough (ha ▸ h)
      exact .inr (.inr ⟨h, row, i, rfl, hi, by rw [decode_of_row hrow, hi]⟩)

theorem operandsFetched_le_two (ir : Byte) : operandsFetched ir ≤ 2 := Nat.min_le_right _ _

theorem operandsFetched_le_count (ir : Byte) : operandsFetched ir ≤ operandCount ir := Nat.min_le_left _ _

/-- The two top bits of the opcode byte as a number. -/
theorem operandCount_eq (ir : Byte) : operandCount ir = ir.toNat / 64 := by
  have := ir.isLt
  simp [operandCount, BitVec.extractLsb'_toNat, Nat.shiftRight_eq_div_pow]
  try omega

theorem operandsFetched_eq (ir : Byte) : operandsFetched ir = min (ir.toNat / 64) 2 := by
  rw [operandsFetched, operandCount_eq]

theorem operandCount_le_three (ir : Byte) : operandCount ir ≤ 3 := Nat.le_of_lt_succ (ir.extractLsb' 6 2).isLt

end Sys2Proof
end

