-- ==== Sys2Proof/Laws/Memory.lean ====
section
/-! SUPPORT. The laws of memory: a read after a write, the canonical form kept by every operation. -/

namespace Sys2Proof.Machine

open Sys2Proof

namespace Memory

@[simp] theorem read_nil (a : Nat) : Memory.read [] a = Config.memReset := rfl

theorem read_cons (k b : Nat) (w : Byte) (m : Memory) :
    Memory.read ((k, w) :: m) b = if b = k then w else Memory.read m b := rfl

theorem read_insert (m : Memory) (a b : Nat) (v : Byte) :
    (Memory.insert m a v).read b = if b = a then v else Memory.read m b := by
  induction m with
  | nil => rfl
  | cons c rest ih =>
    obtain ⟨k, w⟩ := c
    simp only [Memory.insert]
    split
    · rfl
    · split
      · next hk => subst hk; simp only [read_cons]; split <;> rfl
      · next hk =>
        simp only [read_cons, ih]
        by_cases hb : b = k
        · simp only [hb, Ne.symm hk, if_true, if_false]
        · simp only [hb, if_false]

theorem read_erase (m : Memory) (a b : Nat) :
    (Memory.erase m a).read b = if b = a then Config.memReset else Memory.read m b := by
  induction m with
  | nil => simp [Memory.erase]
  | cons c rest ih =>
    obtain ⟨k, w⟩ := c
    by_cases hk : k = a
    · have : Memory.erase ((k, w) :: rest) a = Memory.erase rest a := by simp [Memory.erase, hk]
      rw [this, ih, read_cons, hk]
      split <;> rfl
    · have : Memory.erase ((k, w) :: rest) a = (k, w) :: Memory.erase rest a := by simp [Memory.erase, hk]
      rw [this, read_cons, read_cons, ih]
      by_cases hb : b = k
      · simp only [hb, hk, if_true, if_false]
      · simp only [hb, if_false]

/-- A read after a write gives the value written at its address and the old byte everywhere else (20_memory.md R51). -/
theorem read_write (m : Memory) (a b : Nat) (v : Byte) :
    (Memory.write m a v).read b = if b = a then v else Memory.read m b := by
  unfold Memory.write
  split
  · next h => rw [read_erase, h]
  · exact read_insert m a b v

@[simp] theorem read_write_self (m : Memory) (a : Nat) (v : Byte) : (Memory.write m a v).read a = v := by
  simp [read_write]

theorem read_write_of_ne (m : Memory) {a b : Nat} (v : Byte) (h : b ≠ a) :
    (Memory.write m a v).read b = Memory.read m b := by
  simp [read_write, h]

/-- The bytes of a list stand where it was stored, as far as memory reaches; everything else is as before. -/
theorem read_writeList (vs : List Byte) : ∀ (m : Memory) (a b : Nat),
    (Memory.writeList m a vs).read b =
      if h : a ≤ b ∧ b - a < vs.length ∧ b < Config.memSize then vs[b - a]'h.2.1 else Memory.read m b := by
  induction vs with
  | nil => intro m a b; simp [Memory.writeList]
  | cons v vs ih =>
    intro m a b
    simp only [Memory.writeList, ih]
    rcases Nat.lt_trichotomy b a with hlt | heq | hgt
    · have h1 : ¬ (a + 1 ≤ b) := by omega
      have h2 : ¬ (a ≤ b) := by omega
      have h3 : b ≠ a := by omega
      simp only [h1, h2, false_and, dite_false]
      split
      · exact read_write_of_ne m v h3
      · rfl
    · subst heq
      have h1 : ¬ (b + 1 ≤ b) := by omega
      by_cases hb : b < Config.memSize <;> simp [h1, hb]
    · have h1 : a + 1 ≤ b := by omega
      have h2 : a ≤ b := by omega
      have h3 : b ≠ a := by omega
      have h4 : b - (a + 1) < vs.length ↔ b - a < (v :: vs).length := by
        simp only [List.length_cons]; omega
      have h5 : b - a = (b - (a + 1)) + 1 := by omega
      by_cases h : b - a < (v :: vs).length ∧ b < Config.memSize
      · have h' : a + 1 ≤ b ∧ b - (a + 1) < vs.length ∧ b < Config.memSize := ⟨h1, h4.mpr h.1, h.2⟩
        rw [dif_pos h', dif_pos ⟨h2, h⟩]
        simp only [h5, List.getElem_cons_succ]
      · have h' : ¬ (a + 1 ≤ b ∧ b - (a + 1) < vs.length ∧ b < Config.memSize) := fun e => h ⟨h4.mp e.2.1, e.2.2⟩
        rw [dif_neg h', dif_neg fun e => h e.2]
        split
        · exact read_write_of_ne m v h3
        · rfl

/-! ### The canonical form -/

theorem wf_nil : Memory.wf [] := by simp [Memory.wf]

theorem wf_tail {c : Host.Cell} {m : Memory} (h : Memory.wf (c :: m)) : Memory.wf m :=
  ⟨(List.pairwise_cons.mp h.1).2, fun d hd => h.2 d (List.mem_cons_of_mem c hd)⟩

theorem mem_insert {m : Memory} {a : Nat} {v : Byte} {c : Host.Cell} (h : c ∈ Memory.insert m a v) :
    c = (a, v) ∨ c ∈ m := by
  induction m with
  | nil => simpa [Memory.insert] using h
  | cons d rest ih =>
    obtain ⟨k, w⟩ := d
    simp only [Memory.insert] at h
    split at h
    · simpa using h
    · split at h
      · rcases List.mem_cons.mp h with h | h
        · exact .inl h
        · exact .inr (List.mem_cons_of_mem _ h)
      · rcases List.mem_cons.mp h with h | h
        · exact .inr (h ▸ List.mem_cons_self)
        · exact (ih h).imp id (List.mem_cons_of_mem _)

theorem wf_insert {m : Memory} (hm : m.wf) {a : Nat} (ha : a < Config.memSize) {v : Byte} (hv : v ≠ Config.memReset) :
    (m.insert a v).wf := by
  refine ⟨?_, fun c hc => ?_⟩
  · induction m with
    | nil => simp [Memory.insert]
    | cons d rest ih =>
      obtain ⟨k, w⟩ := d
      obtain ⟨hlt, hrest⟩ := List.pairwise_cons.mp hm.1
      simp only [Memory.insert]
      split
      · next hak =>
        refine List.pairwise_cons.mpr ⟨fun c hc => ?_, hm.1⟩
        rcases List.mem_cons.mp hc with rfl | hc
        · exact hak
        · exact Nat.lt_trans hak (hlt c hc)
      · next hak =>
        split
        · next hk => subst hk; exact List.pairwise_cons.mpr ⟨hlt, hrest⟩
        · next hk =>
          refine List.pairwise_cons.mpr ⟨fun c hc => ?_, ih (wf_tail hm)⟩
          rcases mem_insert hc with rfl | hc
          · simp only; omega
          · exact hlt c hc
  · rcases mem_insert hc with rfl | hc
    · exact ⟨ha, hv⟩
    · exact hm.2 c hc

theorem wf_erase {m : Memory} (hm : m.wf) (a : Nat) : (m.erase a).wf :=
  ⟨hm.1.filter _, fun c hc => hm.2 c (List.mem_of_mem_filter hc)⟩

/-- A store at an address that exists keeps the canonical form. -/
theorem wf_write {m : Memory} (hm : m.wf) {a : Nat} (ha : a < Config.memSize) (v : Byte) : (m.write a v).wf := by
  unfold Memory.write
  split
  · exact wf_erase hm a
  · next hv => exact wf_insert hm ha hv

/-- Storing a list of bytes keeps the canonical form, wherever it begins. -/
theorem wf_writeList (vs : List Byte) : ∀ {m : Memory} (a : Nat), m.wf → (m.writeList a vs).wf := by
  induction vs with
  | nil => intro m a hm; exact hm
  | cons v vs ih =>
    intro m a hm
    simp only [Memory.writeList]
    split
    · next ha => exact ih (a + 1) (wf_write hm ha v)
    · exact ih (a + 1) hm

end Memory

/-- A data store, its address a byte, keeps the canonical form. -/
theorem State.store_wf {s : State} (h : s.mem.wf) (addr v : Byte) : (s.store addr v).mem.wf :=
  Memory.wf_write h addr.isLt v

theorem State.load_store_self (s : State) (addr v : Byte) : (s.store addr v).load addr = v :=
  Memory.read_write_self s.mem addr.toNat v

/-- The host's load keeps the canonical form. -/
theorem loadImage_wf {image : List Byte} {s t : State} (h : s.mem.wf) (ht : loadImage image s = .next t) : t.mem.wf := by
  unfold loadImage at ht
  split at ht
  · cases ht; exact Memory.wf_writeList image 0 h
  · cases ht

theorem State.placeAtFetch_wf {s : State} (h : s.mem.wf) (bytes : List Byte) : (s.placeAtFetch bytes).mem.wf :=
  Memory.wf_writeList bytes _ h

theorem reset_mem_wf : State.reset.mem.wf := Memory.wf_nil

end Sys2Proof.Machine
end

