-- ==== Sys2Proof/Laws/Engine.lean ====
section
/-! SUPPORT. What fetching answers and what one step can be: the lemmas that later proofs cite instead of unfolding the
engine. -/

namespace Sys2Proof.Machine

open Sys2Proof

theorem State.byteAt?_below (s : State) {a : Nat} (h : a < Config.memSize) : s.byteAt? a = some (s.mem.read a) := by
  simp only [State.byteAt?, if_pos h]

theorem State.byteAt?_past (s : State) {a : Nat} (h : Config.memSize ≤ a) : s.byteAt? a = none := by
  simp only [State.byteAt?, if_neg (Nat.not_lt.mpr h)]

/-! ### Fetch -/

/-- With `pc` past memory nothing is fetched. -/
theorem fetch_past {s : State} (h : Config.memSize ≤ s.pc.toNat) : fetch s = [] := by
  simp only [fetch, s.byteAt?_past h]

/-- With `pc` in memory the opcode byte comes first, and the operand bytes called for all follow exactly when the last of
them has an address up to 255. -/
theorem fetch_in_memory {s : State} {ir : Byte} (hpc : s.pc.toNat < Config.memSize)
    (hir : s.mem.read s.pc.toNat = ir) :
    ∃ operands, fetch s = ir :: operands ∧
      (s.pc.toNat + operandsFetched ir < Config.memSize →
        operands = (List.range (operandsFetched ir)).map fun k => s.mem.read (s.pc.toNat + 1 + k)) ∧
      (Config.memSize ≤ s.pc.toNat + operandsFetched ir → operands.length < operandsFetched ir) := by
  subst hir
  refine ⟨(List.range (operandsFetched (s.mem.read s.pc.toNat))).filterMap fun k => s.byteAt? (s.pc.toNat + 1 + k),
    by simp only [fetch, s.byteAt?_below hpc], fun h => ?_, fun h => ?_⟩
  · rw [← List.filterMap_eq_map]
    apply List.filterMap_congr
    intro k hk
    have := List.mem_range.mp hk
    exact s.byteAt?_below (by omega)
  · have h2 := operandsFetched_le_two (s.mem.read s.pc.toNat)
    generalize operandsFetched (s.mem.read s.pc.toNat) = n at h h2
    simp only [Config.memSize] at hpc h
    rcases n with _ | _ | _ | n
    · omega
    · have h0 : s.byteAt? (s.pc.toNat + 1) = none := s.byteAt?_past (by simp only [Config.memSize]; omega)
      simp [List.range_succ, h0]
    · have h1 : s.byteAt? (s.pc.toNat + 1 + 1) = none := s.byteAt?_past (by simp only [Config.memSize]; omega)
      have := List.length_filterMap_le (fun k => s.byteAt? (s.pc.toNat + 1 + k)) (List.range 1)
      simp only [List.range_succ, List.range_zero, List.nil_append, List.cons_append,
        List.filterMap_cons, List.filterMap_nil, Nat.add_zero, h1]
      cases s.byteAt? (s.pc.toNat + 1) <;> simp
    · omega

/-! ### One step -/

theorem step_of_running {s : State} (h : s.run = .running) : step s = cycle s := by
  simp only [step, h]

theorem step_of_halted {s : State} {c : HaltCause} (h : s.run = .halted c) : step s = .fault (.coreHalted c) := by
  simp only [step, h]

theorem step_of_faulted {s : State} {r : FaultReason} (h : s.run = .faulted r) : step s = .fault (.coreFaulted r) := by
  simp only [step, h]

/-- Only a running machine steps. -/
theorem running_of_step {s t : State} (h : step s = .next t) : s.run = .running := by
  unfold step at h
  split at h
  · assumption
  · cases h
  · cases h

theorem cycle_past {s : State} (h : Config.memSize ≤ s.pc.toNat) : cycle s = s.halt .pcPastEnd := by
  simp only [cycle, fetch_past h, decode_nil]

/-- Everything a cycle can be. -/
theorem cycle_cases (s : State) :
    (Config.memSize ≤ s.pc.toNat ∧ cycle s = s.halt .pcPastEnd) ∨
    (∃ ir, s.pc.toNat < Config.memSize ∧ s.mem.read s.pc.toNat = ir ∧
      ((Config.memSize ≤ s.pc.toNat + operandsFetched ir ∧ cycle s = s.raise .operandFetchOutOfRange) ∨
       (s.pc.toNat + operandsFetched ir < Config.memSize ∧ rowOf ir = none ∧ cycle s = execUnknown ir s) ∨
       (s.pc.toNat + operandsFetched ir < Config.memSize ∧ ∃ row i, rowOf ir = some row ∧
          row.shape.build ((List.range (operandsFetched ir)).map fun k => s.mem.read (s.pc.toNat + 1 + k)) =
            .ok (.instr i) ∧ cycle s = exec i s))) := by
  rcases Nat.lt_or_ge s.pc.toNat Config.memSize with hpc | hpc
  · refine .inr ⟨_, hpc, rfl, ?_⟩
    obtain ⟨operands, hf, hin, hout⟩ := fetch_in_memory hpc rfl
    rcases Nat.lt_or_ge (s.pc.toNat + operandsFetched (s.mem.read s.pc.toNat)) Config.memSize with h | h
    · have hops := hin h
      have hl : operands.length = operandsFetched (s.mem.read s.pc.toNat) := by simp [hops]
      rcases decode_cons_cases (s.mem.read s.pc.toNat) operands with ⟨hlt, _⟩ | ⟨_, hrow, hd⟩ | ⟨_, row, i, hrow, hb, hd⟩
      · omega
      · exact .inr (.inl ⟨h, hrow, by simp only [cycle, hf, hd]⟩)
      · exact .inr (.inr ⟨h, row, i, hrow, hops ▸ hb, by simp only [cycle, hf, hd]⟩)
    · rcases decode_cons_cases (s.mem.read s.pc.toNat) operands with ⟨_, hd⟩ | ⟨hle, _⟩ | ⟨hle, _⟩
      · exact .inl ⟨h, by simp only [cycle, hf, hd]⟩
      · exact absurd (hout h) (Nat.not_lt.mpr hle)
      · exact absurd (hout h) (Nat.not_lt.mpr hle)
  · exact .inl ⟨hpc, cycle_past hpc⟩

/-! ### Where `State.withFetchWord` places an instruction -/

/-- The placed bytes are the ones fetched: three of them stand at `pc`, `pc+1`, `pc+2`. -/
theorem placeAtFetch_reads (s : State) (b0 b1 b2 : Byte) :
    let t := s.placeAtFetch [b0, b1, b2]
    t.run = .running ∧ t.pc.toNat + 2 < Config.memSize ∧ t.mem.read t.pc.toNat = b0 ∧
      t.mem.read (t.pc.toNat + 1) = b1 ∧ t.mem.read (t.pc.toNat + 2) = b2 := by
  have hlt : (s.placeAtFetch [b0, b1, b2]).pc.toNat + 2 < Config.memSize := by
    simp only [State.placeAtFetch]
    split
    · next h => simp only [Config.memSize] at *; omega
    · simp [Config.memSize, Config.pcReset]
  have hmem : (s.placeAtFetch [b0, b1, b2]).mem =
      s.mem.writeList (s.placeAtFetch [b0, b1, b2]).pc.toNat [b0, b1, b2] := rfl
  refine ⟨rfl, hlt, ?_, ?_, ?_⟩
  · rw [hmem, Memory.read_writeList, dif_pos (by simp only [List.length_cons]; omega)]; simp
  · rw [hmem, Memory.read_writeList, dif_pos (by simp only [List.length_cons]; omega)]; simp
  · rw [hmem, Memory.read_writeList, dif_pos (by simp only [List.length_cons]; omega)]; simp

/-- The host's placing of an instruction does what it is for: the very next step executes the instruction decoded from the
placed word. -/
theorem step_withFetchWord (s : State) {nbits w : Nat} {i : Instr} (h : decodeTableWord nbits w = some i) :
    step (s.withFetchWord nbits w) = exec i (s.withFetchWord nbits w) := by
  obtain ⟨b0, b1, b2, hb⟩ : ∃ b0 b1 b2, tableBytes nbits w = [b0, b1, b2] := ⟨_, _, _, rfl⟩
  obtain ⟨hrun, hfit, h0, h1, h2⟩ := placeAtFetch_reads s b0 b1 b2
  simp only [decodeTableWord, State.withFetchWord, hb] at h ⊢
  generalize s.placeAtFetch [b0, b1, b2] = t at hrun hfit h0 h1 h2 ⊢
  rw [step_of_running hrun]
  have h2' := operandsFetched_le_two b0
  obtain ⟨operands, hf, hin, -⟩ := fetch_in_memory (s := t) (by omega) h0
  have hops : operands = [b1, b2].take (operandsFetched b0) := by
    rw [hin (by omega)]
    generalize operandsFetched b0 = n at h2'
    rcases n with _ | _ | _ | n
    · rfl
    · simp [List.range_succ, h1]
    · simp [List.range_succ, h1, h2]
    · omega
  have hd : decode (b0 :: operands) = .ok (.instr i) := by
    rcases hrow : rowOf b0 with _ | row
    · rw [decode_unknown hrow (by simpa using h2')] at h; simp at h
    · rw [decode_of_row hrow] at h ⊢
      rw [hops, operandsFetched_of_row hrow]
      cases hs : row.shape <;> simp_all [Shape.build, Shape.arity]
  simp only [cycle, hf, hd]

end Sys2Proof.Machine
end

