-- ==== Sys2Proof/Laws/State.lean ====
section
/-! SUPPORT. One lemma per field per update of State, so that no proof unfolds a record update. -/

namespace Sys2Proof.Machine

open Sys2Proof

/-! ### The sizes, as numbers -/

@[simp] theorem memSize_eq : Config.memSize = 256 := rfl
@[simp] theorem memReset_eq : Config.memReset = 0#8 := rfl
@[simp] theorem sp_eq : Config.sp = 7 := rfl
@[simp] theorem equalBit_eq : Config.equalBit = 0 := rfl

variable (s : State)

@[simp] theorem State.setReg_regs (r : RegIx) (v : Byte) : (s.setReg r v).regs = s.regs.set r.val v := rfl
@[simp] theorem State.setReg_pc (r : RegIx) (v : Byte) : (s.setReg r v).pc = s.pc := rfl
@[simp] theorem State.setReg_fl (r : RegIx) (v : Byte) : (s.setReg r v).fl = s.fl := rfl
@[simp] theorem State.setReg_run (r : RegIx) (v : Byte) : (s.setReg r v).run = s.run := rfl
@[simp] theorem State.setReg_mem (r : RegIx) (v : Byte) : (s.setReg r v).mem = s.mem := rfl
@[simp] theorem State.setReg_out (r : RegIx) (v : Byte) : (s.setReg r v).out = s.out := rfl

@[simp] theorem State.store_regs (a v : Byte) : (s.store a v).regs = s.regs := rfl
@[simp] theorem State.store_pc (a v : Byte) : (s.store a v).pc = s.pc := rfl
@[simp] theorem State.store_fl (a v : Byte) : (s.store a v).fl = s.fl := rfl
@[simp] theorem State.store_run (a v : Byte) : (s.store a v).run = s.run := rfl
@[simp] theorem State.store_mem (a v : Byte) : (s.store a v).mem = s.mem.write a.toNat v := rfl
@[simp] theorem State.store_out (a v : Byte) : (s.store a v).out = s.out := rfl

@[simp] theorem State.advance_regs (n : Nat) : (s.advance n).regs = s.regs := rfl
@[simp] theorem State.advance_pc (n : Nat) : (s.advance n).pc = s.pc + BitVec.ofNat 9 (n + 1) := rfl
@[simp] theorem State.advance_fl (n : Nat) : (s.advance n).fl = s.fl := rfl
@[simp] theorem State.advance_run (n : Nat) : (s.advance n).run = s.run := rfl
@[simp] theorem State.advance_mem (n : Nat) : (s.advance n).mem = s.mem := rfl
@[simp] theorem State.advance_out (n : Nat) : (s.advance n).out = s.out := rfl

@[simp] theorem State.jump_regs (v : Byte) : (s.jump v).regs = s.regs := rfl
@[simp] theorem State.jump_pc (v : Byte) : (s.jump v).pc = v.setWidth 9 := rfl
@[simp] theorem State.jump_fl (v : Byte) : (s.jump v).fl = s.fl := rfl
@[simp] theorem State.jump_run (v : Byte) : (s.jump v).run = s.run := rfl
@[simp] theorem State.jump_mem (v : Byte) : (s.jump v).mem = s.mem := rfl
@[simp] theorem State.jump_out (v : Byte) : (s.jump v).out = s.out := rfl

@[simp] theorem State.emit_regs (v : Byte) : (s.emit v).regs = s.regs := rfl
@[simp] theorem State.emit_pc (v : Byte) : (s.emit v).pc = s.pc := rfl
@[simp] theorem State.emit_fl (v : Byte) : (s.emit v).fl = s.fl := rfl
@[simp] theorem State.emit_run (v : Byte) : (s.emit v).run = s.run := rfl
@[simp] theorem State.emit_mem (v : Byte) : (s.emit v).mem = s.mem := rfl
@[simp] theorem State.emit_out (v : Byte) : (s.emit v).out = s.out ++ [v] := rfl

@[simp] theorem State.setEqual_regs (e : Bool) : (s.setEqual e).regs = s.regs := rfl
@[simp] theorem State.setEqual_pc (e : Bool) : (s.setEqual e).pc = s.pc := rfl
@[simp] theorem State.setEqual_fl (e : Bool) : (s.setEqual e).fl = withEqualBit s.fl e := rfl
@[simp] theorem State.setEqual_run (e : Bool) : (s.setEqual e).run = s.run := rfl
@[simp] theorem State.setEqual_mem (e : Bool) : (s.setEqual e).mem = s.mem := rfl
@[simp] theorem State.setEqual_out (e : Bool) : (s.setEqual e).out = s.out := rfl

/-! ### Registers as read through their accessor -/

@[simp] theorem State.getReg_setReg_self (r : RegIx) (v : Byte) : (s.setReg r v).getReg r = v := by
  simp [State.getReg]

theorem State.getReg_setReg_of_ne {r q : RegIx} (h : q ≠ r) (v : Byte) : (s.setReg r v).getReg q = s.getReg q := by
  have hv : r.val ≠ q.val := fun e => h (Fin.ext e.symm)
  simp [State.getReg, hv]

/-- A register write is seen in its own register and in no other (10_state.md R22). -/
theorem State.getReg_setReg (r q : RegIx) (v : Byte) :
    (s.setReg r v).getReg q = if q = r then v else s.getReg q := by
  split
  · next h => subst h; exact s.getReg_setReg_self q v
  · next h => exact s.getReg_setReg_of_ne h v

/-- The stack pointer is register 7 and has no storage of its own (10_state.md R21). -/
@[simp] theorem State.setSp_eq (v : Byte) : s.setSp v = s.setReg 7 v := rfl
@[simp] theorem State.getSp_eq : s.getSp = s.getReg 7 := rfl

@[simp] theorem State.getReg_store (a v : Byte) (r : RegIx) : (s.store a v).getReg r = s.getReg r := rfl
@[simp] theorem State.getReg_advance (n : Nat) (r : RegIx) : (s.advance n).getReg r = s.getReg r := rfl
@[simp] theorem State.getReg_jump (v : Byte) (r : RegIx) : (s.jump v).getReg r = s.getReg r := rfl
@[simp] theorem State.getReg_emit (v : Byte) (r : RegIx) : (s.emit v).getReg r = s.getReg r := rfl
@[simp] theorem State.getReg_setEqual (e : Bool) (r : RegIx) : (s.setEqual e).getReg r = s.getReg r := rfl
@[simp] theorem State.getReg_with_pc (x : PcWord) (r : RegIx) : State.getReg { s with pc := x } r = s.getReg r := rfl
@[simp] theorem State.getReg_with_fl (x : Byte) (r : RegIx) : State.getReg { s with fl := x } r = s.getReg r := rfl
@[simp] theorem State.getReg_with_run (x : RunState) (r : RegIx) : State.getReg { s with run := x } r = s.getReg r := rfl
@[simp] theorem State.getReg_with_mem (x : Memory) (r : RegIx) : State.getReg { s with mem := x } r = s.getReg r := rfl
@[simp] theorem State.getReg_with_out (x : List Byte) (r : RegIx) : State.getReg { s with out := x } r = s.getReg r := rfl

/-- Two states with the same registers, read one by one, and the same other fields are equal. -/
theorem State.ext_getReg {s t : State} (hr : ∀ r, t.getReg r = s.getReg r) (hpc : t.pc = s.pc) (hfl : t.fl = s.fl)
    (hrun : t.run = s.run) (hmem : t.mem = s.mem) (hout : t.out = s.out) : t = s := by
  have hregs : t.regs = s.regs := Vector.ext fun i hi => hr ⟨i, hi⟩
  cases s; cases t; simp_all

/-! ### The equal flag -/

@[simp] theorem equalFlag_setEqual (e : Bool) : (s.setEqual e).equalFlag = e := by
  cases e <;> simp [State.equalFlag, withEqualBit, Config.equalBit]

/-- Writing the equal flag leaves the other seven bits of FL alone (10_state.md R37). -/
theorem withEqualBit_other (fl : Byte) (e : Bool) {k : Nat} (hk : k ≠ Config.equalBit) :
    (withEqualBit fl e).getLsbD k = fl.getLsbD k := by
  rcases Nat.lt_or_ge k 8 with h8 | h8
  · have : k = 1 ∨ k = 2 ∨ k = 3 ∨ k = 4 ∨ k = 5 ∨ k = 6 ∨ k = 7 := by
      simp only [Config.equalBit] at hk; omega
    rcases this with rfl | rfl | rfl | rfl | rfl | rfl | rfl <;> cases e <;> simp [withEqualBit]
  · simp [BitVec.getLsbD_of_ge, h8]

@[simp] theorem State.equalFlag_of_fl (x : Byte) : State.equalFlag { s with fl := x } = x.getLsbD 0 := rfl

end Sys2Proof.Machine
end

