-- ==== Sys2Proof/Laws/Ops.lean ====
section
/-! SUPPORT. What the shared operations do, said once each: narrowing, the ALU, the register check, the stack pointer. -/

namespace Sys2Proof.Machine

open Sys2Proof

/-! ### Narrowing -/

@[simp] theorem trunc8_natCast (n : Nat) : trunc8 (n : Int) = BitVec.ofNat 8 n := by
  simp [trunc8, BitVec.ofInt_natCast]

theorem trunc8_toNat (v : Int) : ((trunc8 v).toNat : Int) = v % 256 := by
  simp [trunc8, BitVec.toNat_ofInt, Int.emod_nonneg]

/-! ### The ALU as word arithmetic -/

theorem aluAdd_eq (x y : Byte) : aluAdd x y = x + y := by
  simp [aluAdd, trunc8, BitVec.ofInt_add]

theorem aluMul_eq (x y : Byte) : aluMul x y = x * y := by
  simp [aluMul, trunc8, BitVec.ofInt_mul]

theorem aluInc_eq (x : Byte) : aluInc x = x + 1#8 := by
  simp [aluInc, trunc8, BitVec.ofInt_add]

theorem aluDec_eq (x : Byte) : aluDec x = x - 1#8 := by
  apply BitVec.eq_of_toNat_eq
  have h := trunc8_toNat ((x.toNat : Int) - 1)
  have hx := x.isLt
  simp only [aluDec, BitVec.toNat_sub, BitVec.toNat_ofNat]
  omega

theorem aluDiv_eq (x y : Byte) : aluDiv x y = if y = 0#8 then none else some (x / y) := by
  have hz : y.toNat = 0 ↔ y = 0#8 := by
    constructor
    · exact fun h => BitVec.eq_of_toNat_eq h
    · rintro rfl; rfl
  unfold aluDiv
  simp only [hz, trunc8_natCast]
  congr 2
  apply BitVec.eq_of_toNat_eq
  have hx := x.isLt
  have : x.toNat / y.toNat ≤ x.toNat := Nat.div_le_self _ _
  simp only [BitVec.toNat_ofNat, BitVec.toNat_udiv]
  exact Nat.mod_eq_of_lt (Nat.lt_of_le_of_lt this hx)

theorem aluMod_eq (x y : Byte) : aluMod x y = if y = 0#8 then none else some (x % y) := by
  have hz : y.toNat = 0 ↔ y = 0#8 := by
    constructor
    · exact fun h => BitVec.eq_of_toNat_eq h
    · rintro rfl; rfl
  unfold aluMod
  simp only [hz, trunc8_natCast]
  congr 2
  apply BitVec.eq_of_toNat_eq
  have hx := x.isLt
  have : x.toNat % y.toNat ≤ x.toNat := Nat.mod_le _ _
  simp only [BitVec.toNat_ofNat, BitVec.toNat_umod]
  exact Nat.mod_eq_of_lt (Nat.lt_of_le_of_lt this hx)

/-! ### Register operands -/

@[simp] theorem regByte_toNat (r : RegIx) : (regByte r).toNat = r.val := by
  simp [regByte]; omega

@[simp] theorem regIndex?_regByte (r : RegIx) : regIndex? (regByte r) = some r := by
  unfold regIndex?
  rw [dif_pos (by rw [regByte_toNat]; exact r.isLt)]
  exact congrArg some (Fin.ext (regByte_toNat r))

theorem regIndex?_eq_none {a : Byte} (h : 8 ≤ a.toNat) : regIndex? a = none := by
  unfold regIndex?
  rw [dif_neg (by omega)]

/-- An operand byte is the byte of a register, or is out of range. -/
theorem regByte_or_out_of_range (a : Byte) : (∃ r, a = regByte r) ∨ 8 ≤ a.toNat := by
  rcases Nat.lt_or_ge a.toNat 8 with h | h
  · exact .inl ⟨⟨a.toNat, h⟩, by simp [regByte]⟩
  · exact .inr h

/-- `namesRegister` is the check that `regIndex?` makes. -/
theorem namesRegister_regByte (r : RegIx) : namesRegister (regByte r) = true := by
  simp [namesRegister]

@[simp] theorem State.withReg_regByte (s : State) (r : RegIx) (k : RegIx → Result) : s.withReg (regByte r) k = k r := by
  simp [State.withReg]

theorem State.withReg_out_of_range (s : State) {a : Byte} (h : 8 ≤ a.toNat) (k : RegIx → Result) :
    s.withReg a k = s.raise .registerIndexOutOfRange := by
  simp [State.withReg, regIndex?_eq_none h]

@[simp] theorem State.withRegs_regByte (s : State) (r q : RegIx) (k : RegIx → RegIx → Result) :
    s.withRegs (regByte r) (regByte q) k = k r q := by
  simp [State.withRegs]

theorem State.withRegs_out_of_range (s : State) {a b : Byte} (h : 8 ≤ a.toNat ∨ 8 ≤ b.toNat)
    (k : RegIx → RegIx → Result) : s.withRegs a b k = s.raise .registerIndexOutOfRange := by
  unfold State.withRegs
  rcases regByte_or_out_of_range a with ⟨r, rfl⟩ | ha
  · have hb : 8 ≤ b.toNat := by
      rcases h with h | h
      · rw [regByte_toNat] at h; omega
      · exact h
    rw [s.withReg_regByte, s.withReg_out_of_range hb]
  · exact s.withReg_out_of_range ha _

/-- Everything a checked register operand can lead to. -/
theorem State.withReg_cases (s : State) (a : Byte) (k : RegIx → Result) :
    (∃ r, a = regByte r ∧ s.withReg a k = k r) ∨
    (8 ≤ a.toNat ∧ s.withReg a k = .next { s with run := .faulted .registerIndexOutOfRange }) := by
  rcases regByte_or_out_of_range a with ⟨r, rfl⟩ | ha
  · exact .inl ⟨r, rfl, s.withReg_regByte r k⟩
  · exact .inr ⟨ha, s.withReg_out_of_range ha k⟩

/-- Everything two checked register operands can lead to. -/
theorem State.withRegs_cases (s : State) (a b : Byte) (k : RegIx → RegIx → Result) :
    (∃ r q, a = regByte r ∧ b = regByte q ∧ s.withRegs a b k = k r q) ∨
    ((8 ≤ a.toNat ∨ 8 ≤ b.toNat) ∧ s.withRegs a b k = .next { s with run := .faulted .registerIndexOutOfRange }) := by
  rcases regByte_or_out_of_range a with ⟨r, rfl⟩ | ha
  · rcases regByte_or_out_of_range b with ⟨q, rfl⟩ | hb
    · exact .inl ⟨r, q, rfl, rfl, s.withRegs_regByte r q k⟩
    · exact .inr ⟨.inr hb, s.withRegs_out_of_range (.inr hb) k⟩
  · exact .inr ⟨.inl ha, s.withRegs_out_of_range (.inl ha) k⟩

/-! ### The stack pointer -/

theorem State.pushAddr_eq (s : State) : s.pushAddr = s.getReg 7 - 1#8 := aluDec_eq (s.getReg 7)

/-- Below a stack pointer that is not 0 there is a cell to push to. -/
theorem State.pushAddr_toNat {s : State} (h : s.getReg 7 ≠ 0#8) : s.pushAddr.toNat + 1 = (s.getReg 7).toNat := by
  have h0 : (s.getReg 7).toNat ≠ 0 := fun e => h (BitVec.eq_of_toNat_eq e)
  have hlt := (s.getReg 7).isLt
  rw [s.pushAddr_eq, BitVec.toNat_sub]
  simp only [BitVec.toNat_ofNat]
  omega

theorem State.spDown?_zero {s : State} (h : s.getReg 7 = 0#8) : s.spDown? = none := by simp [State.spDown?, h]

theorem State.spDown?_pos {s : State} (h : s.getReg 7 ≠ 0#8) : s.spDown? = some (s.setReg 7 s.pushAddr) := by
  simp [State.spDown?, h]

theorem State.spUp?_top {s : State} (h : s.getReg 7 = 255#8) : s.spUp? = none := by simp [State.spUp?, h]

theorem State.spUp?_below {s : State} (h : s.getReg 7 ≠ 255#8) : s.spUp? = some (s.setReg 7 (s.getReg 7 + 1#8)) := by
  have : trunc8 (((s.getReg 7).toNat : Int) + 1) = s.getReg 7 + 1#8 := aluInc_eq (s.getReg 7)
  simp only [State.spUp?, State.getSp_eq, State.setSp_eq, if_neg h, this]

end Sys2Proof.Machine
end

