-- ==== Sys2Proof/Laws/Exec.lean ====
section
/-! SUPPORT. One equation per meaning, its register operands in range: what the instruction does, in word arithmetic. -/

namespace Sys2Proof.Machine

open Sys2Proof

variable (s : State)

theorem execLdi_eq (ra : RegIx) (b : Byte) : execLdi (regByte ra) b s = .next ((s.setReg ra b).advance 2) := by
  simp only [execLdi, State.withReg_regByte]

theorem execLd_eq (ra rb : RegIx) :
    execLd (regByte ra) (regByte rb) s = .next ((s.setReg ra (s.getReg rb)).advance 2) := by
  simp only [execLd, State.withRegs_regByte]

theorem execPrn_eq (ra : RegIx) : execPrn (regByte ra) s = .next ((s.emit (s.getReg ra)).advance 1) := by
  simp only [execPrn, State.withReg_regByte]

theorem execAdd_eq (ra rb : RegIx) :
    execAdd (regByte ra) (regByte rb) s = .next ((s.setReg ra (s.getReg ra + s.getReg rb)).advance 2) := by
  simp only [execAdd, State.withRegs_regByte, aluAdd_eq]

theorem execMul_eq (ra rb : RegIx) :
    execMul (regByte ra) (regByte rb) s =
      .next (((s.setReg ra (s.getReg ra * s.getReg rb)).emit (s.getReg ra * s.getReg rb)).advance 2) := by
  simp only [execMul, State.withRegs_regByte, aluMul_eq, State.getReg_setReg_self]

theorem execAnd_eq (ra rb : RegIx) :
    execAnd (regByte ra) (regByte rb) s = .next ((s.setReg ra (s.getReg ra &&& s.getReg rb)).advance 2) := by
  simp only [execAnd, State.withRegs_regByte, aluAnd]

theorem execMod_eq (ra rb : RegIx) :
    execMod (regByte ra) (regByte rb) s =
      if s.getReg rb = 0#8 then .next { s with run := .faulted .moduloByZero }
      else .next ((s.setReg ra (s.getReg ra % s.getReg rb)).advance 2) := by
  simp only [execMod, State.withRegs_regByte, aluMod_eq]
  by_cases h : s.getReg rb = 0#8
  · simp only [if_pos h]; rfl
  · simp only [if_neg h]

theorem execDiv_eq (ra rb : RegIx) :
    execDiv (regByte ra) (regByte rb) s =
      if s.getReg rb = 0#8 then .next { s with run := .halted .divideByZero }
      else .next ((s.setReg ra (s.getReg ra / s.getReg rb)).advance 2) := by
  simp only [execDiv, State.withRegs_regByte, aluDiv_eq]
  by_cases h : s.getReg rb = 0#8
  · simp only [if_pos h]; rfl
  · simp only [if_neg h]

theorem execInc_eq (ra : RegIx) :
    execInc (regByte ra) s = .next ((s.setReg ra (s.getReg ra + 1#8)).advance 1) := by
  simp only [execInc, State.withReg_regByte, aluInc_eq]

theorem execDec_eq (ra : RegIx) :
    execDec (regByte ra) s = .next ((s.setReg ra (s.getReg ra - 1#8)).advance 1) := by
  simp only [execDec, State.withReg_regByte, aluDec_eq]

theorem execCmp_eq (ra rb : RegIx) :
    execCmp (regByte ra) (regByte rb) s = .next ((s.setEqual (s.getReg ra == s.getReg rb)).advance 2) := by
  simp only [execCmp, State.withRegs_regByte, aluEqual]

theorem execPush_eq (ra : RegIx) :
    execPush (regByte ra) s =
      if s.getReg 7 = 0#8 then .next { s with run := .faulted .stackPointerOutOfRange }
      else .next (((s.setReg 7 s.pushAddr).store s.pushAddr ((s.setReg 7 s.pushAddr).getReg ra)).advance 1) := by
  simp only [execPush, State.withReg_regByte]
  by_cases h : s.getReg 7 = 0#8
  · rw [s.spDown?_zero h, if_pos h]; rfl
  · rw [s.spDown?_pos h, if_neg h]
    simp only [State.getSp_eq, State.getReg_setReg_self]

theorem execPop_eq (ra : RegIx) :
    execPop (regByte ra) s =
      if (s.setReg ra (s.load (s.getReg 7))).getReg 7 = 255#8 then .next { s with run := .faulted .stackPointerOutOfRange }
      else .next (((s.setReg ra (s.load (s.getReg 7))).setReg 7 ((s.setReg ra (s.load (s.getReg 7))).getReg 7 + 1#8)).advance 1) := by
  simp only [execPop, State.withReg_regByte, State.getSp_eq]
  by_cases h : (s.setReg ra (s.load (s.getReg 7))).getReg 7 = 255#8
  · rw [State.spUp?_top h, if_pos h]; rfl
  · rw [State.spUp?_below h, if_neg h]

theorem execCall_eq (ra : RegIx) :
    execCall (regByte ra) s =
      if 255 < s.pc.toNat + 2 then .next { s with run := .faulted .returnAddressOutOfRange }
      else if s.getReg 7 = 0#8 then .next { s with run := .faulted .stackPointerOutOfRange }
      else .next (((s.setReg 7 s.pushAddr).store s.pushAddr (BitVec.ofNat 8 (s.pc.toNat + 2))).jump
        ((s.setReg 7 s.pushAddr).getReg ra)) := by
  simp only [execCall, State.withReg_regByte]
  split
  · rfl
  · by_cases h : s.getReg 7 = 0#8
    · rw [s.spDown?_zero h, if_pos h]; rfl
    · rw [s.spDown?_pos h, if_neg h]
      simp only [State.getSp_eq, State.getReg_setReg_self, State.getReg_store]
      rw [← trunc8_natCast]; rfl

theorem execRet_eq :
    execRet s =
      if s.getReg 7 = 255#8 then .next { s with run := .faulted .stackPointerOutOfRange }
      else .next ((s.setReg 7 (s.getReg 7 + 1#8)).jump (s.load (s.getReg 7))) := by
  simp only [execRet, State.getSp_eq]
  by_cases h : s.getReg 7 = 255#8
  · rw [s.spUp?_top h, if_pos h]; rfl
  · rw [s.spUp?_below h, if_neg h]

theorem execJmp_eq (ra : RegIx) : execJmp (regByte ra) s = .next (s.jump (s.getReg ra)) := by
  simp only [execJmp, State.withReg_regByte]

theorem execJeq_eq (ra : RegIx) :
    execJeq (regByte ra) s = .next (if s.equalFlag then s.jump (s.getReg ra) else s.advance 1) := by
  simp only [execJeq, State.withReg_regByte]

theorem execJne_eq (ra : RegIx) :
    execJne (regByte ra) s = .next (if s.equalFlag then s.advance 1 else s.jump (s.getReg ra)) := by
  simp only [execJne, State.withReg_regByte]

theorem execHlt_eq : execHlt s = .next { s with run := .halted .hlt } := rfl

theorem execUnknown_eq (ir : Byte) : execUnknown ir s = .next (s.advance (operandCount ir)) := rfl

/-! ### Register operands out of range -/

theorem namesRegister_eq_false {a : Byte} (h : namesRegister a = false) : 8 ≤ a.toNat := by
  simpa [namesRegister] using h

/-- The register check comes before any effect, whatever the instruction (40_engine.md R94). -/
theorem exec_of_wellFormed_eq_false {i : Instr} (h : i.wellFormed = false) :
    exec i s = .next { s with run := .faulted .registerIndexOutOfRange } := by
  cases i with
  | hlt | ret => cases h
  | push a | pop a | prn a | call a | jmp a | jeq a | jne a | inc a | dec a | ldi a b =>
    exact s.withReg_out_of_range (namesRegister_eq_false h) _
  | ld a b | add a b | mul a b | div a b | mod a b | cmp a b | and a b =>
    rcases Bool.and_eq_false_iff.mp h with h | h
    · exact s.withRegs_out_of_range (.inl (namesRegister_eq_false h)) _
    · exact s.withRegs_out_of_range (.inr (namesRegister_eq_false h)) _

end Sys2Proof.Machine
end

