-- ==== Sys2Proof/Laws/Step.lean ====
section
/-! SUPPORT. The two inversions that claims about every step cite: what a step can have been, and which instructions an
executed instruction can have been, its register operands named. -/

namespace Sys2Proof.Machine

open Sys2Proof

@[simp] theorem operandReg_regByte (r : RegIx) : operandReg (regByte r) = r := by
  apply Fin.ext
  simp [operandReg]

/-- The operand count of an instruction's opcode byte is the number of its operand bytes. -/
theorem operandsFetched_opcode (i : Instr) : operandsFetched i.opcode = i.operands.length := by
  cases i <;> simp only [Instr.opcode, Instr.operands, List.length] <;> decide

/-- What a row of the opcode map builds is encoded by the bytes it was built from. -/
theorem Shape.build_encode {ir : Byte} {row : OpcodeRow} {operands : List Byte} {i : Instr} (h : rowOf ir = some row)
    (hb : row.shape.build operands = .ok (.instr i)) : ∃ rest, ir :: operands = encode i ++ rest := by
  obtain ⟨hm, rfl⟩ := rowOf_some h
  simp only [opcodeTable, List.mem_cons, List.not_mem_nil, or_false] at hm
  rcases hm with rfl | rfl | rfl | rfl | rfl | rfl | rfl | rfl | rfl | rfl | rfl | rfl | rfl | rfl | rfl | rfl | rfl |
      rfl | rfl <;>
    rcases operands with _ | ⟨a, _ | ⟨b, rest⟩⟩ <;> simp [Shape.build] at hb <;> subst hb <;> exact ⟨_, rfl⟩

/-- Everything a step with a next state can have been. -/
theorem step_cases {s t : State} (h : step s = .next t) :
    s.run = .running ∧
    ((256 ≤ s.pc.toNat ∧ t = { s with run := .halted .pcPastEnd }) ∨
     (s.pc.toNat < 256 ∧ 256 ≤ s.pc.toNat + operandsFetched (s.mem.read s.pc.toNat) ∧
        t = { s with run := .faulted .operandFetchOutOfRange }) ∨
     (s.pc.toNat < 256 ∧ s.pc.toNat + operandsFetched (s.mem.read s.pc.toNat) < 256 ∧
        rowOf (s.mem.read s.pc.toNat) = none ∧ t = s.advance (operandCount (s.mem.read s.pc.toNat))) ∨
     ∃ i, s.BytesAtPc (encode i) ∧ exec i s = .next t) := by
  have hr := running_of_step h
  refine ⟨hr, ?_⟩
  rw [step_of_running hr] at h
  rcases cycle_cases s with ⟨hp, hc⟩ | ⟨_, hp, rfl, ⟨hx, hc⟩ | ⟨hx, hrow, hc⟩ | ⟨hx, row, i, hrow, hb, hc⟩⟩
  · rw [hc] at h; cases h; exact .inl ⟨hp, rfl⟩
  · rw [hc] at h; cases h; exact .inr (.inl ⟨hp, hx, rfl⟩)
  · rw [hc] at h; cases h; exact .inr (.inr (.inl ⟨hp, hx, hrow, rfl⟩))
  · refine .inr (.inr (.inr ⟨i, ?_, hc ▸ h⟩))
    obtain ⟨rest, hrest⟩ := Shape.build_encode hrow hb
    obtain rfl : rest = [] := by
      have hlen := congrArg List.length hrest
      have hop : s.mem.read s.pc.toNat = i.opcode := by simp [encode] at hrest; exact hrest.1
      simp [encode] at hlen
      rw [hop, operandsFetched_opcode] at hlen
      exact List.eq_nil_of_length_eq_zero (by omega)
    rw [List.append_nil] at hrest
    intro k hk
    simp only [← hrest] at hk ⊢
    simp at hk
    simp only [Config.memSize] at hx
    refine ⟨by omega, ?_⟩
    cases k with
    | zero => simp
    | succ k => simp; congr 1; omega

/-- Everything an executed instruction can have been: one with a register operand out of range, which faults, or one of
the nineteen with registers for its register operands. -/
theorem exec_cases {i : Instr} {s t : State} (h : exec i s = .next t) :
    (i.wellFormed = false ∧ t = { s with run := .faulted .registerIndexOutOfRange }) ∨
    (i.wellFormed = true ∧
      (i = .hlt ∨ i = .ret ∨
       (∃ r, i = .push (regByte r) ∨ i = .pop (regByte r) ∨ i = .prn (regByte r) ∨ i = .call (regByte r) ∨
          i = .jmp (regByte r) ∨ i = .jeq (regByte r) ∨ i = .jne (regByte r) ∨ i = .inc (regByte r) ∨
          i = .dec (regByte r) ∨ ∃ b, i = .ldi (regByte r) b) ∨
       ∃ r q, i = .ld (regByte r) (regByte q) ∨ i = .add (regByte r) (regByte q) ∨ i = .mul (regByte r) (regByte q) ∨
          i = .div (regByte r) (regByte q) ∨ i = .mod (regByte r) (regByte q) ∨ i = .cmp (regByte r) (regByte q) ∨
          i = .and (regByte r) (regByte q))) := by
  cases hw : i.wellFormed with
  | false => rw [exec_of_wellFormed_eq_false s hw] at h; cases h; exact .inl ⟨rfl, rfl⟩
  | true =>
    refine .inr ⟨rfl, ?_⟩
    have key : ∀ a, namesRegister a = true → ∃ r, a = regByte r := by
      intro a ha
      rcases regByte_or_out_of_range a with h | h
      · exact h
      · simp only [namesRegister, decide_eq_true_eq] at ha; omega
    cases i with
    | hlt => simp
    | ret => simp
    | push a | pop a | prn a | call a | jmp a | jeq a | jne a | inc a | dec a | ldi a b =>
      obtain ⟨r, rfl⟩ := key a hw
      exact .inr (.inr (.inl ⟨r, by simp⟩))
    | ld a b | add a b | mul a b | div a b | mod a b | cmp a b | and a b =>
      simp only [Instr.wellFormed, Bool.and_eq_true] at hw
      obtain ⟨r, rfl⟩ := key a hw.1
      obtain ⟨q, rfl⟩ := key b hw.2
      exact .inr (.inr (.inr ⟨r, q, by simp⟩))

end Sys2Proof.Machine
end

