-- ==== Sys2Proof/Machine/Asm.lean ====
section
/-! DEFINITION. The assembly form of an instruction (spec/30_encoding.md R85). It is a way to write instructions down and
has no effect on the machine; a register byte above 7 is written with its number all the same. -/

namespace Sys2Proof

/-- A register operand, `r0` to `r7`. -/
def asmReg (a : Byte) : String := "r" ++ Nat.repr a.toNat

/-- The form with one register operand. -/
def asmR (mnemonic : String) (a : Byte) : String := mnemonic ++ " " ++ asmReg a

/-- The form with two register operands, the first one byte 1. -/
def asmRR (mnemonic : String) (a b : Byte) : String := asmR mnemonic a ++ ", " ++ asmReg b

/-- The line of 30_encoding.md R85 for an instruction; LDI's immediate in decimal. -/
def Instr.asm : Instr → String
  | .hlt => "HLT"
  | .ret => "RET"
  | .push a => asmR "PUSH" a
  | .pop a => asmR "POP" a
  | .prn a => asmR "PRN" a
  | .call a => asmR "CALL" a
  | .jmp a => asmR "JMP" a
  | .jeq a => asmR "JEQ" a
  | .jne a => asmR "JNE" a
  | .inc a => asmR "INC" a
  | .dec a => asmR "DEC" a
  | .ldi a b => asmR "LDI" a ++ ", " ++ Nat.repr b.toNat
  | .ld a b => asmRR "LD" a b
  | .add a b => asmRR "ADD" a b
  | .mul a b => asmRR "MUL" a b
  | .div a b => asmRR "DIV" a b
  | .mod a b => asmRR "MOD" a b
  | .cmp a b => asmRR "CMP" a b
  | .and a b => asmRR "AND" a b

end Sys2Proof
end

