-- ==== Sys2Proof/Tests/Slice0.lean ====
section
/-! SUPPORT. Tests and witnesses. A test's expected result is the vector of spec/95_test_vectors.md that its comment
names, or is worked out from the rule named. A witness shows concrete states and operands that meet the hypotheses of
the obligation it is named after. -/

namespace Sys2Proof.Tests

open Sys2Proof Sys2Proof.Machine

/-- The reset machine with bytes at an address and `pc` there. -/
def bytesAt (bytes : List Byte) (p : Nat) : State :=
  { State.reset with pc := BitVec.ofNat 9 p, mem := Memory.writeList [] p bytes }

/-- One cell of memory more. -/
def withCell (s : State) (a : Nat) (v : Byte) : State := { s with mem := s.mem.write a v }

/-- What one step leaves, seen through `f`. -/
def after {α : Type} (s : State) (f : State → α) : Option α :=
  match step s with
  | .next t => some (f t)
  | _ => none

/-! ### Well-formedness: an ill-formed term for each check -/

/-- Format R checks `a`, in each of its nine instructions. -/
theorem test_wellFormed_refuses_format_R :
    (Instr.push 8).wellFormed = false ∧ (Instr.pop 8).wellFormed = false ∧ (Instr.prn 255).wellFormed = false ∧
    (Instr.call 8).wellFormed = false ∧ (Instr.jmp 128).wellFormed = false ∧ (Instr.jeq 8).wellFormed = false ∧
    (Instr.jne 8).wellFormed = false ∧ (Instr.inc 9).wellFormed = false ∧ (Instr.dec 8).wellFormed = false := by decide

/-- Format RI checks `a`; its immediate is never refused. -/
theorem test_wellFormed_refuses_format_RI :
    (Instr.ldi 8 0).wellFormed = false ∧ (Instr.ldi 7 255).wellFormed = true := by decide

/-- Format RR checks `a`. -/
theorem test_wellFormed_refuses_format_RR_a :
    (Instr.ld 8 0).wellFormed = false ∧ (Instr.add 8 0).wellFormed = false ∧ (Instr.mul 8 0).wellFormed = false ∧
    (Instr.div 8 0).wellFormed = false ∧ (Instr.mod 8 0).wellFormed = false ∧ (Instr.cmp 8 0).wellFormed = false ∧
    (Instr.and 8 0).wellFormed = false := by decide

/-- Format RR checks `b`. -/
theorem test_wellFormed_refuses_format_RR_b :
    (Instr.ld 0 8).wellFormed = false ∧ (Instr.add 0 8).wellFormed = false ∧ (Instr.mul 0 8).wellFormed = false ∧
    (Instr.div 0 8).wellFormed = false ∧ (Instr.mod 0 8).wellFormed = false ∧ (Instr.cmp 0 8).wellFormed = false ∧
    (Instr.and 0 8).wellFormed = false := by decide

/-! ### Decoding: every constructor's word, bit by bit from 30_encoding.md R78 (decision D2) -/

theorem test_decode_format_Z :
    decode [0b00000001#8] = .ok (.instr .hlt) ∧ decode [0b00010001#8] = .ok (.instr .ret) := by decide

theorem test_decode_stack_and_output :
    decode [0b01000101#8, 0b00000111#8] = .ok (.instr (.push 7)) ∧
    decode [0b01000110#8, 0b00000001#8] = .ok (.instr (.pop 1)) ∧
    decode [0b01000111#8, 0b00000010#8] = .ok (.instr (.prn 2)) := by decide

theorem test_decode_control :
    decode [0b01010000#8, 0b00000011#8] = .ok (.instr (.call 3)) ∧
    decode [0b01010100#8, 0b00000100#8] = .ok (.instr (.jmp 4)) ∧
    decode [0b01010101#8, 0b00000101#8] = .ok (.instr (.jeq 5)) ∧
    decode [0b01010110#8, 0b00000110#8] = .ok (.instr (.jne 6)) := by decide

theorem test_decode_unary :
    decode [0b01100101#8, 0b00000011#8] = .ok (.instr (.inc 3)) ∧
    decode [0b01100110#8, 0b00000100#8] = .ok (.instr (.dec 4)) := by decide

theorem test_decode_moves :
    decode [0b10000010#8, 0b00000001#8, 0b10000000#8] = .ok (.instr (.ldi 1 128)) ∧
    decode [0b10000011#8, 0b00000010#8, 0b00000101#8] = .ok (.instr (.ld 2 5)) := by decide

theorem test_decode_binary :
    decode [0b10100000#8, 0b00000001#8, 0b00000010#8] = .ok (.instr (.add 1 2)) ∧
    decode [0b10100010#8, 0b00000011#8, 0b00000100#8] = .ok (.instr (.mul 3 4)) ∧
    decode [0b10100011#8, 0b00000101#8, 0b00000110#8] = .ok (.instr (.div 5 6)) ∧
    decode [0b10100100#8, 0b00000111#8, 0b00000000#8] = .ok (.instr (.mod 7 0)) ∧
    decode [0b10100111#8, 0b00000010#8, 0b00000001#8] = .ok (.instr (.cmp 2 1)) ∧
    decode [0b10101000#8, 0b00000110#8, 0b00000011#8] = .ok (.instr (.and 6 3)) := by decide

/-- Words that are no instruction: nothing, an operand missing, an unknown opcode with and without its operands. -/
theorem test_decode_rejections :
    decode [] = .error .noOpcode ∧ decode [0x82#8, 0#8] = .error .operandMissing ∧
    decode [0x45#8] = .error .operandMissing ∧ decode [0x84#8, 0#8] = .error .operandMissing ∧
    decode [0xFF#8, 1#8, 2#8] = .ok (.unknown 0xFF#8) ∧ decode [0#8] = .ok (.unknown 0#8) := by decide

/-- spec/opcode_table.json numbers bit 0 as the least significant bit of the first byte: `LDI r1, 5` and `LDI r0, 0`. -/
theorem test_decodeTableWord :
    decodeTableWord 24 0x050182 = some (.ldi 1 5) ∧ decodeTableWord 8 0x82 = some (.ldi 0 0) ∧
    decodeTableWord 24 0x0201A3 = some (.div 1 2) ∧ decodeTableWord 8 0x84 = none := by decide

/-- 30_encoding.md R85, the lines of program P1 and two of P2. -/
theorem test_asm :
    (Instr.ldi 0 5).asm = "LDI r0, 5" ∧ (Instr.add 0 1).asm = "ADD r0, r1" ∧ (Instr.prn 0).asm = "PRN r0" ∧
    Instr.hlt.asm = "HLT" ∧ (Instr.jeq 3).asm = "JEQ r3" ∧ (Instr.ldi 3 23).asm = "LDI r3, 23" := by decide

/-! ### Reset and the host -/

theorem reset_inv : State.reset.Inv := ⟨Memory.wf_nil, by decide, by decide⟩

/-- 70_reset_and_hazards.md R203: the image of P1's first instruction. -/
theorem test_loader_places_image :
    loadImage [0x82#8, 0x00#8, 0x05#8] State.reset =
      .next { State.reset with mem := [(0, 0x82#8), (2, 0x05#8)] } := rfl

/-- The placed word is what the next step runs: `LDI r0, 5` (V1.1). -/
theorem test_withFetchWord : after (State.reset.withFetchWord 24 0x050082) (fun t => (t.getReg 0, t.pc)) =
    some (5#8, 3#9) := by decide

/-- From a halted machine with `pc` at 255 the placed word still runs. -/
theorem test_withFetchWord_anywhere :
    after ({ bytesAt [] 255 with run := .halted .hlt }.withFetchWord 8 0x01) (fun t => (t.run, t.pc)) =
      some (.halted .hlt, 0#9) := by decide

/-! ### One step each (95_test_vectors.md part 2) -/

/-- V1.2 -/
theorem test_LDI_moves_stack_pointer :
    after (bytesAt [0x82#8, 0x07#8, 0x64#8] 0) (fun t => (t.getReg 7, t.pc)) = some (100#8, 3#9) := by decide

/-- V1.6 -/
theorem test_LDI_at_253 :
    after (bytesAt [0x82#8, 0x00#8, 0x07#8] 253) (fun t => (t.getReg 0, t.pc, t.run)) = some (7#8, 256#9, .running) := by
  decide

/-- V1.7 -/
theorem test_LD_copies :
    after (((bytesAt [0x83#8, 0x02#8, 0x00#8] 6).setReg 0 9#8).setReg 2 1#8) (fun t => (t.getReg 2, t.getReg 0, t.pc)) =
      some (9#8, 9#8, 9#9) := by decide

/-- V1.9 -/
theorem test_LD_checks_b :
    after (bytesAt [0x83#8, 0x00#8, 0x09#8] 0) (fun t => t.run) = some (.faulted .registerIndexOutOfRange) := by decide

/-- V1.10 -/
theorem test_PRN_emits :
    after ((bytesAt [0x47#8, 0x00#8] 9).setReg 0 8#8) (fun t => (t.out, t.pc)) = some ([8#8], 11#9) := by decide

/-- V1.12 -/
theorem test_PRN_at_255 :
    after (bytesAt [0x47#8] 255) (fun t => (t.run, t.pc, t.out)) = some (.faulted .operandFetchOutOfRange, 255#9, []) := by
  decide

/-- V2.2 -/
theorem test_ADD_wraps :
    after (((bytesAt [0xA0#8, 0#8, 1#8] 0).setReg 0 200#8).setReg 1 100#8) (fun t => (t.getReg 0, t.fl)) =
      some (44#8, 0#8) := by decide

/-- V2.3 -/
theorem test_ADD_same_register :
    after ((bytesAt [0xA0#8, 0#8, 0#8] 0).setReg 0 200#8) (fun t => t.getReg 0) = some 144#8 := by decide

/-- V2.7 -/
theorem test_MUL_wraps :
    after (((bytesAt [0xA2#8, 0#8, 1#8] 0).setReg 0 255#8).setReg 1 255#8) (fun t => (t.getReg 0, t.out)) =
      some (1#8, [1#8]) := by decide

/-- V2.8 -/
theorem test_MUL_emits_zero :
    after ((bytesAt [0xA2#8, 0#8, 1#8] 0).setReg 0 9#8) (fun t => (t.getReg 0, t.out)) = some (0#8, [0#8]) := by decide

/-- V2.9 -/
theorem test_AND_bitwise :
    after (((bytesAt [0xA8#8, 0#8, 1#8] 0).setReg 0 0xCC#8).setReg 1 0xAA#8) (fun t => (t.getReg 0, t.getReg 1)) =
      some (0x88#8, 0xAA#8) := by decide

/-- V2.14 -/
theorem test_MOD_small_dividend :
    after (((bytesAt [0xA4#8, 0#8, 1#8] 0).setReg 0 3#8).setReg 1 5#8) (fun t => t.getReg 0) = some 3#8 := by decide

/-- V2.16 -/
theorem test_MOD_by_zero :
    after ((bytesAt [0xA4#8, 0#8, 1#8] 0).setReg 0 9#8) (fun t => (t.run, t.getReg 0, t.pc, t.out)) =
      some (.faulted .moduloByZero, 9#8, 0#9, []) := by decide

/-- V2.17 -/
theorem test_DIV_floors :
    after (((bytesAt [0xA3#8, 0#8, 1#8] 0).setReg 0 20#8).setReg 1 6#8) (fun t => (t.getReg 0, t.out, t.pc)) =
      some (3#8, [], 3#9) := by decide

/-- V2.21 -/
theorem test_DIV_by_zero :
    after ((bytesAt [0xA3#8, 0#8, 1#8] 6).setReg 0 9#8) (fun t => (t.run, t.getReg 0, t.pc, t.out)) =
      some (.halted .divideByZero, 9#8, 6#9, []) := by decide

/-- V2.22 -/
theorem test_INC_wraps :
    after ((bytesAt [0x65#8, 0#8] 0).setReg 0 255#8) (fun t => (t.getReg 0, t.pc)) = some (0#8, 2#9) := by decide

/-- V2.27 -/
theorem test_INC_stack_pointer :
    after (bytesAt [0x65#8, 7#8] 0) (fun t => (t.getReg 7, t.run)) = some (245#8, .running) := by decide

/-- V2.23 -/
theorem test_DEC_wraps :
    after (bytesAt [0x66#8, 0#8] 0) (fun t => (t.getReg 0, t.pc)) = some (255#8, 2#9) := by decide

/-- V2.24 -/
theorem test_CMP_sets :
    after (((bytesAt [0xA7#8, 0#8, 1#8] 0).setReg 0 5#8).setReg 1 5#8) (fun t => (t.fl, t.pc)) = some (1#8, 3#9) := by
  decide

/-- V2.25 -/
theorem test_CMP_clears :
    after ((((bytesAt [0xA7#8, 0#8, 1#8] 0).setReg 0 5#8).setReg 1 6#8).setEqual true) (fun t => t.fl) = some 0#8 := by
  decide

/-- V3.4 -/
theorem test_PUSH_r7 :
    after (bytesAt [0x45#8, 7#8] 0) (fun t => (t.getReg 7, t.mem.read 243)) = some (243#8, 243#8) := by decide

/-- V3.8 -/
theorem test_PUSH_to_address_0 :
    after (((bytesAt [0x45#8, 0#8] 10).setReg 0 77#8).setReg 7 1#8) (fun t => (t.getReg 7, t.mem.read 0, t.pc)) =
      some (0#8, 77#8, 12#9) := by decide

/-- V3.5 -/
theorem test_POP_r7 :
    after (withCell ((bytesAt [0x46#8, 7#8] 0).setReg 7 243#8) 243 100#8) (fun t => t.getReg 7) = some 101#8 := by decide

/-- V3.6 -/
theorem test_POP_r7_faults :
    after (withCell ((bytesAt [0x46#8, 7#8] 0).setReg 7 243#8) 243 255#8) (fun t => (t.run, t.getReg 7)) =
      some (.faulted .stackPointerOutOfRange, 243#8) := by decide

/-- V4.3 -/
theorem test_CALL_r7 :
    after (bytesAt [0x50#8, 7#8] 6) (fun t => (t.getReg 7, t.mem.read 243, t.pc)) = some (243#8, 8#8, 243#9) := by decide

/-- V4.10 -/
theorem test_CALL_at_253 :
    after ((bytesAt [0x50#8, 0#8] 253).setReg 0 9#8) (fun t => (t.getReg 7, t.mem.read 243, t.pc)) =
      some (243#8, 255#8, 9#9) := by decide

/-- V4.2 -/
theorem test_RET_pops :
    after (withCell ((bytesAt [0x11#8] 17).setReg 7 243#8) 243 8#8) (fun t => (t.pc, t.getReg 7)) = some (8#9, 244#8) := by
  decide

/-- V4.11 -/
theorem test_RET_at_stack_top :
    after ((bytesAt [0x11#8] 0).setReg 7 255#8) (fun t => t.run) = some (.faulted .stackPointerOutOfRange) := by decide

/-- V4.4 -/
theorem test_JMP_to_itself :
    after ((bytesAt [0x54#8, 0#8] 20).setReg 0 20#8) (fun t => t.pc) = some 20#9 := by decide

/-- V4.5 -/
theorem test_JEQ_taken :
    after (((bytesAt [0x55#8, 3#8] 17).setReg 3 23#8).setEqual true) (fun t => (t.pc, t.fl)) = some (23#9, 1#8) := by decide

/-- V4.13 -/
theorem test_JEQ_checked_when_untaken :
    after (bytesAt [0x55#8, 8#8] 0) (fun t => t.run) = some (.faulted .registerIndexOutOfRange) := by decide

/-- V4.7 -/
theorem test_JNE_taken : after ((bytesAt [0x56#8, 2#8] 19).setReg 2 12#8) (fun t => t.pc) = some 12#9 := by decide

/-- V4.8 -/
theorem test_JNE_untaken :
    after (((bytesAt [0x56#8, 2#8] 19).setReg 2 12#8).setEqual true) (fun t => t.pc) = some 21#9 := by decide

/-- V5.1 -/
theorem test_HLT_keeps_pc :
    after ((bytesAt [0x01#8, 0x47#8, 0#8] 11).setReg 0 8#8) (fun t => (t.run, t.pc, t.out)) =
      some (.halted .hlt, 11#9, []) := by decide

/-- V5.2 -/
theorem test_HLT_at_255 : after (bytesAt [0x01#8] 255) (fun t => (t.run, t.pc)) = some (.halted .hlt, 255#9) := by decide

/-- V5.5 -/
theorem test_unknown_ignores_operands :
    after (bytesAt [0x84#8, 0x63#8, 0xC8#8] 3) (fun t => (t.pc, t.run)) = some (6#9, .running) := by decide

/-- V5.7 -/
theorem test_unknown_count_3_at_253 :
    after (bytesAt [0xFF#8, 1#8, 2#8] 253) (fun t => (t.pc, t.run)) = some (257#9, .running) := by decide

/-- V5.10 -/
theorem test_unknown_can_fault :
    after (bytesAt [0x40#8] 255) (fun t => t.run) = some (.faulted .operandFetchOutOfRange) := by decide

/-- V5.9, its second step -/
theorem test_pc_past_end : after (bytesAt [] 256) (fun t => (t.run, t.pc)) = some (.halted .pcPastEnd, 256#9) := by decide

/-- V6.1 -/
theorem test_priority_fetch_before_register :
    after (bytesAt [0x82#8, 9#8] 254) (fun t => t.run) = some (.faulted .operandFetchOutOfRange) := by decide

/-- V6.2 -/
theorem test_priority_register_before_divisor :
    after (bytesAt [0xA3#8, 9#8, 1#8] 0) (fun t => t.run) = some (.faulted .registerIndexOutOfRange) := by decide

/-- V6.3 and V6.4 -/
theorem test_priority_of_CALL :
    after ((bytesAt [0x50#8, 9#8] 254).setReg 7 0#8) (fun t => t.run) = some (.faulted .registerIndexOutOfRange) ∧
    after ((bytesAt [0x50#8, 0#8] 254).setReg 7 0#8) (fun t => t.run) = some (.faulted .returnAddressOutOfRange) := by
  decide

/-! ### Witnesses: the hypotheses of the obligations are met -/

/-- An opcode byte stands at `pc` of a running machine. -/
abbrev StandsAt (ir : Byte) (p : Nat) : Prop :=
  (bytesAt [ir] p).run = .running ∧ (bytesAt [ir] p).OpcodeAtPc ir ∧ (bytesAt [ir] p).pc.toNat = p

/-- The hypotheses of a 3-byte instruction's fetch clause and of its register clause, at their boundaries. -/
abbrev LongFormMet (ir : Byte) : Prop := StandsAt ir 254 ∧ StandsAt ir 255 ∧ 7 < (8#8).toNat ∧ 7 < (255#8).toNat

/-- The same for a 2-byte instruction. -/
abbrev ShortFormMet (ir : Byte) : Prop := StandsAt ir 255 ∧ 7 < (8#8).toNat ∧ 7 < (255#8).toNat

/-- An instruction's bytes stand at `pc` of a running machine. -/
abbrev InstrStands (s : State) (i : Instr) : Prop := s.run = .running ∧ s.BytesAtPc (encode i)

/-- The opcode bytes 0x00, 0x40, 0x80 and 0xC0 are unknown: one for each operand count. -/
theorem unknown_opcodes (i : Instr) : i.opcode ≠ 0x00#8 ∧ i.opcode ≠ 0x40#8 ∧ i.opcode ≠ 0x80#8 ∧ i.opcode ≠ 0xC0#8 := by
  cases i <;> simp only [Instr.opcode] <;> decide

theorem witness_ResetGivesEveryPieceOfStateItsValue : (0 : RegIx) ≠ 7 ∧ (6 : RegIx) ≠ 7 := by decide

/-- The longest image that is loaded, its last byte and the first cell above a shorter one, and the shortest refused. -/
theorem witness_LoaderPlacesTheImageFromAddressZero :
    (List.replicate 256 1#8 : List Byte).length ≤ 256 ∧ 255 < (List.replicate 256 1#8 : List Byte).length ∧
    (List.replicate 255 1#8 : List Byte).length ≤ 255 ∧ ([] : List Byte).length ≤ 0 ∧
    256 < (List.replicate 257 1#8 : List Byte).length := by
  simp only [List.length_replicate]; decide

theorem witness_TerminalStatesTakeNoStep :
    State.Ended { State.reset with run := .halted .hlt } ∧ State.Ended { State.reset with run := .faulted .moduloByZero } ∧
    loadImage [] { State.reset with run := .halted .hlt } = .next { State.reset with run := .halted .hlt } :=
  ⟨nofun, nofun, rfl⟩

theorem witness_RunningStatesAlwaysStep : State.reset.run = .running ∧ (bytesAt [] 511).run = .running := by decide

theorem witness_RunStateCodesAreTheTable : (RunState.halted .hlt).code = (RunState.halted .hlt).code := rfl

theorem witness_LaunchStatesMeetTheInvariant : ∃ t, loadImage [0x01#8] State.reset = .next t := ⟨_, rfl⟩

/-- Steps from states of the invariant: a store, and the step that leaves the largest `pc`. -/
theorem witness_StepKeepsTheInvariant :
    (bytesAt [0x45#8, 7#8] 0).Inv ∧ (bytesAt [0xFF#8, 1#8, 2#8] 253).Inv ∧
    (∃ t, step (bytesAt [0x45#8, 7#8] 0) = .next t) ∧ ∃ t, step (bytesAt [0xFF#8, 1#8, 2#8] 253) = .next t :=
  ⟨⟨by decide, by decide, by decide⟩, ⟨by decide, by decide, by decide⟩, ⟨_, rfl⟩, _, rfl⟩

theorem witness_CanonicalMemoriesThatReadAlikeAreEqual :
    Memory.wf [(0, 1#8), (255, 2#8)] ∧ ∀ a, Memory.read [(0, 1#8), (255, 2#8)] a = Memory.read [(0, 1#8), (255, 2#8)] a :=
  ⟨by decide, fun _ => rfl⟩

/-- Unknown opcodes of every operand count, with just enough operand bytes. -/
theorem witness_OtherOpcodeBytesAreUnknownNotIllegal :
    (∀ i : Instr, i.opcode ≠ 0x00#8) ∧ min ((0x00#8).toNat / 64) 2 ≤ ([] : List Byte).length ∧
    (∀ i : Instr, i.opcode ≠ 0xC0#8) ∧ min ((0xC0#8).toNat / 64) 2 ≤ [1#8, 2#8].length :=
  ⟨fun i => (unknown_opcodes i).1, by decide, fun i => (unknown_opcodes i).2.2.2, by decide⟩

/-- At the highest address where a 3-byte instruction fits, and a 1-byte one at the top of memory. -/
theorem witness_StepRunsTheDecodedInstruction :
    InstrStands (bytesAt [0x82#8, 0#8, 7#8] 253) (.ldi 0 7) ∧ InstrStands (bytesAt [0x01#8] 255) .hlt := by decide

/-- Each operand count at its last address that completes and its first that faults. -/
theorem witness_UnknownOpcodeOnlyAdvances :
    (∀ i : Instr, i.opcode ≠ 0x00#8 ∧ i.opcode ≠ 0x40#8 ∧ i.opcode ≠ 0x80#8 ∧ i.opcode ≠ 0xC0#8) ∧
    (StandsAt 0x00#8 255 ∧ 255 + min ((0x00#8).toNat / 64) 2 ≤ 255) ∧
    (StandsAt 0x40#8 254 ∧ 254 + min ((0x40#8).toNat / 64) 2 ≤ 255) ∧
    (StandsAt 0xC0#8 253 ∧ 253 + min ((0xC0#8).toNat / 64) 2 ≤ 255) ∧
    (StandsAt 0x40#8 255 ∧ 255 < 255 + min ((0x40#8).toNat / 64) 2) ∧
    StandsAt 0x80#8 254 ∧ 255 < 254 + min ((0x80#8).toNat / 64) 2 :=
  ⟨unknown_opcodes, by decide, by decide, by decide, by decide, by decide⟩

/-- The first `pc` past memory and the last; a step that ends so; each transfer that completes. -/
theorem witness_PcPastEndHaltsExactlyThere :
    ((bytesAt [] 256).run = .running ∧ 256 ≤ (bytesAt [] 256).pc.toNat) ∧ 256 ≤ (bytesAt [] 511).pc.toNat ∧
    (∃ t, step (bytesAt [] 256) = .next t ∧ t.run = .halted .pcPastEnd) ∧
    (∃ t, exec .ret (bytesAt [] 5) = .next t ∧ t.run = .running) ∧
    (∃ t, exec (.call 1) (bytesAt [] 253) = .next t ∧ t.run = .running) ∧
    (∃ t, exec (.jmp 1) (bytesAt [] 255) = .next t ∧ t.run = .running) ∧
    (∃ t, ((bytesAt [] 0).setEqual true).equalFlag = true ∧ exec (.jeq 1) ((bytesAt [] 0).setEqual true) = .next t ∧
      t.run = .running) ∧
    ∃ t, (bytesAt [] 0).equalFlag = false ∧ exec (.jne 1) (bytesAt [] 0) = .next t ∧ t.run = .running :=
  ⟨by decide, by decide, ⟨_, rfl, rfl⟩, ⟨_, rfl, rfl⟩, ⟨_, rfl, rfl⟩, ⟨_, rfl, rfl⟩, ⟨_, by decide, rfl, rfl⟩,
    _, by decide, rfl, rfl⟩

/-- Both sides of the equivalence and their negations: 255 and 254, with operand counts 0, 1 and 2. -/
theorem witness_OperandFetchFaultsExactlyPastMemory :
    (StandsAt 0x45#8 255 ∧ 1 ≤ (0x45#8).toNat / 64) ∧ (StandsAt 0x82#8 254 ∧ 2 ≤ (0x82#8).toNat / 64) ∧
    (StandsAt 0x01#8 255 ∧ ¬ 1 ≤ (0x01#8).toNat / 64) ∧ StandsAt 0x45#8 254 ∧ ¬ 2 ≤ (0x45#8).toNat / 64 := by decide

/-- Register bytes just out of range and far out; a well-formed instruction that runs. -/
theorem witness_RegisterOperandsAboveSevenFault :
    7 < (8#8).toNat ∧ 7 < (255#8).toNat ∧ (7 < (0#8).toNat ∨ 7 < (8#8).toNat) ∧
    ∃ t, (Instr.add 7 7).WellFormed ∧ State.reset.run = .running ∧ exec (.add 7 7) State.reset = .next t :=
  ⟨by decide, by decide, by decide, _, by decide, rfl, rfl⟩

theorem witness_EndingStepsChangeOnlyTheRunState :
    (∃ t, step (bytesAt [0x01#8] 11) = .next t ∧ t.Ended) ∧ ∃ t, step (bytesAt [0x45#8, 8#8] 0) = .next t ∧ t.Ended :=
  ⟨⟨_, rfl, by decide⟩, _, rfl, by decide⟩

/-- A step for each clause: past memory, an operand missing, an unknown opcode, a well-formed and an ill-formed
instruction. -/
theorem witness_RunAfterAStepFollowsThePriorityList :
    (∃ t, step (bytesAt [] 256) = .next t ∧ 256 ≤ (bytesAt [] 256).pc.toNat) ∧
    (∃ t, step (bytesAt [0x82#8] 254) = .next t ∧ StandsAt 0x82#8 254 ∧ 255 < 254 + min ((0x82#8).toNat / 64) 2) ∧
    (∃ t, step (bytesAt [0x00#8] 255) = .next t ∧ StandsAt 0x00#8 255 ∧ 255 + min ((0x00#8).toNat / 64) 2 ≤ 255 ∧
      ∀ i : Instr, i.opcode ≠ 0x00#8) ∧
    (∃ t, step (bytesAt [0xA3#8, 0#8, 1#8] 253) = .next t ∧ InstrStands (bytesAt [0xA3#8, 0#8, 1#8] 253) (.div 0 1)) ∧
    ∃ t, step (bytesAt [0xA3#8, 9#8, 1#8] 0) = .next t ∧ InstrStands (bytesAt [0xA3#8, 9#8, 1#8] 0) (.div 9 1) :=
  ⟨⟨_, rfl, by decide⟩, ⟨_, rfl, by decide, by decide⟩, ⟨_, rfl, by decide, by decide, fun i => (unknown_opcodes i).1⟩,
    ⟨_, rfl, by decide⟩, _, rfl, by decide⟩

/-- A completion at the highest `pc`, an unknown opcode there, and an instruction that ends the run. -/
theorem witness_CompletedInstructionsLeavePcOnOneTrack :
    (∃ t, (bytesAt [] 255).run = .running ∧ (bytesAt [] 255).pc.toNat ≤ 255 ∧
      exec (.add 0 1) (bytesAt [] 255) = .next t ∧ t.run = .running) ∧
    (∃ t, (bytesAt [] 255).pc.toNat ≤ 255 ∧ execUnknown 0xFF#8 (bytesAt [] 255) = .next t) ∧
    ∃ t, (bytesAt [] 0).run = .running ∧ exec .hlt (bytesAt [] 0) = .next t ∧ t.Ended :=
  ⟨⟨_, rfl, by decide, rfl, rfl⟩, ⟨_, by decide, rfl⟩, _, rfl, rfl, by decide⟩

/-- An instruction that writes two registers, and a register it does not write. -/
theorem witness_OnlyDestinationRegistersChange :
    (∃ t, exec (.pop 1) State.reset = .next t ∧ (2 : RegIx) ∉ regsWritten (.pop 1)) ∧
    ∃ t, execUnknown 0x00#8 State.reset = .next t ∧ (7 : RegIx) ∉ ([] : List RegIx) :=
  ⟨⟨_, rfl, by decide⟩, _, rfl, by decide⟩

/-- A step that changes FL, one that does not, and the bits at both ends of the range. -/
theorem witness_OnlyCmpChangesTheFlagRegister :
    (∃ t, step (bytesAt [0xA7#8, 0#8, 1#8] 0) = .next t ∧ t.fl ≠ (bytesAt [0xA7#8, 0#8, 1#8] 0).fl) ∧
    (∃ t, step State.reset = .next t ∧ t.fl = State.reset.fl) ∧ (1 ≤ 1 ∧ 1 ≤ 7) ∧ 1 ≤ 7 ∧ 7 ≤ 7 :=
  ⟨⟨_, rfl, by decide⟩, ⟨_, rfl, rfl⟩, by decide, by decide⟩

theorem witness_OnlyBranchesDependOnTheEqualFlag :
    ∃ t, (∀ a, Instr.add 0 1 ≠ .jeq a) ∧ (∀ a, Instr.add 0 1 ≠ .jne a) ∧ (∀ a b, Instr.add 0 1 ≠ .cmp a b) ∧
      exec (.add 0 1) State.reset = .next t :=
  ⟨_, nofun, nofun, nofun, rfl⟩

/-- A step that stores, at the lowest address there is, and one that does not. -/
theorem witness_OnlyPushAndCallWriteMemory :
    (∃ t, step ((bytesAt [0x45#8, 7#8] 10).setReg 7 1#8) = .next t) ∧ ∃ t, step State.reset = .next t :=
  ⟨⟨_, rfl⟩, _, rfl⟩

theorem witness_OnlyPrnAndMulAppendToTheOutput :
    (∃ t, (Instr.mul 0 1).WellFormed ∧ exec (.mul 0 1) State.reset = .next t) ∧
    (∃ t, ¬ (Instr.prn 8).WellFormed ∧ exec (.prn 8) State.reset = .next t) ∧
    ∃ t, execUnknown 0x47#8 State.reset = .next t :=
  ⟨⟨_, by decide, rfl⟩, ⟨_, by decide, rfl⟩, _, rfl⟩

theorem witness_LdiLoadsTheImmediate : LongFormMet 0x82#8 := by decide

theorem witness_LdCopiesARegister : LongFormMet 0x83#8 := by decide

theorem witness_PrnEmitsTheRegister : ShortFormMet 0x47#8 := by decide

theorem witness_AddWritesTheSumModulo256 : LongFormMet 0xA0#8 := by decide

theorem witness_MulWritesAndEmitsTheProductModulo256 : LongFormMet 0xA2#8 := by decide

theorem witness_AndWritesTheBitwiseConjunction : LongFormMet 0xA8#8 ∧ 0 < 8 ∧ 7 < 8 := by decide

theorem witness_ModWritesTheRemainderOrFaults :
    LongFormMet 0xA4#8 ∧ (State.reset.setReg 1 1#8).getReg 1 ≠ 0#8 ∧ State.reset.getReg 1 = 0#8 := by decide

theorem witness_DivWritesTheQuotientOrHalts :
    LongFormMet 0xA3#8 ∧ (State.reset.setReg 1 1#8).getReg 1 ≠ 0#8 ∧ State.reset.getReg 1 = 0#8 := by decide

theorem witness_IncAddsOneModulo256 : ShortFormMet 0x65#8 := by decide

theorem witness_DecSubtractsOneModulo256 : ShortFormMet 0x66#8 := by decide

theorem witness_CmpWritesTheEqualFlag : LongFormMet 0xA7#8 ∧ (1 ≤ 1 ∧ 1 ≤ 7) ∧ 1 ≤ 7 ∧ 7 ≤ 7 := by decide

theorem witness_DivAndModFitTogether : (State.reset.setReg 1 1#8).getReg 1 ≠ 0#8 := by decide

/-- Each premise at its boundary. -/
theorem witness_InRangeResultsAreUnbounded :
    (200#8).toNat + (55#8).toNat ≤ 255 ∧ (51#8).toNat * (5#8).toNat ≤ 255 ∧ (254#8).toNat + 1 ≤ 255 ∧ 0 < (1#8).toNat ∧
    0 < (5#8).toNat ∧ (255#8).toNat = 51 * (5#8).toNat := by decide

/-- The lowest stack pointer a push may start from, and the one it may not. -/
theorem witness_PushDecrementsThenStores :
    ShortFormMet 0x45#8 ∧ (State.reset.setReg 7 1#8).getReg 7 ≠ 0#8 ∧ (State.reset.setReg 7 0#8).getReg 7 = 0#8 := by decide

/-- Bases 254 and 255, for `r7` (the byte loaded) and for another register (the stack pointer). -/
theorem witness_PopLoadsThenIncrements :
    ShortFormMet 0x46#8 ∧
    (∃ v base, v = (State.reset.setReg 7 254#8).mem.read ((State.reset.setReg 7 254#8).getReg 7).toNat ∧
      base = (if (0 : RegIx) = 7 then v else (State.reset.setReg 7 254#8).getReg 7) ∧ base ≠ 255#8 ∧ (0 : RegIx) ≠ 7) ∧
    (∃ v base, v = (withCell State.reset 244 254#8).mem.read ((withCell State.reset 244 254#8).getReg 7).toNat ∧
      base = (if (7 : RegIx) = 7 then v else (withCell State.reset 244 254#8).getReg 7) ∧ base ≠ 255#8) ∧
    (if (0 : RegIx) = 7 then (State.reset.setReg 7 255#8).mem.read ((State.reset.setReg 7 255#8).getReg 7).toNat
      else (State.reset.setReg 7 255#8).getReg 7) = 255#8 ∧
    (if (7 : RegIx) = 7 then (withCell State.reset 244 255#8).mem.read ((withCell State.reset 244 255#8).getReg 7).toNat
      else (withCell State.reset 244 255#8).getReg 7) = 255#8 :=
  ⟨by decide, ⟨_, _, rfl, rfl, by decide, by decide⟩, ⟨_, _, rfl, rfl, by decide⟩, by decide, by decide⟩

theorem witness_PopAfterPushReturnsTheValue :
    (State.reset.setReg 7 1#8).getReg 7 ≠ 0#8 ∧ (0 : RegIx) ≠ 7 ∧ (6 : RegIx) ≠ 7 := by decide

/-- As many pushes as the stack pointer allows, the last of them, and cells on both sides of the stack. -/
theorem witness_PushesFillTheStackDownward :
    (∀ r ∈ ([0, 1, 6] : List RegIx), r ≠ 7) ∧ ([0, 1, 6] : List RegIx).length ≤ ((State.reset.setReg 7 3#8).getReg 7).toNat ∧
    2 < ([0, 1, 6] : List RegIx).length ∧ (State.reset.getReg 7).toNat ≤ 244 ∧
    240 < (State.reset.getReg 7).toNat - ([0, 1, 6] : List RegIx).length := by decide

/-- Each of the five ways into the fault, and a step that does not fault. -/
theorem witness_OnlyStackInstructionsRaiseTheStackFault :
    (∃ t, exec (.push (regByte 0)) (State.reset.setReg 7 0#8) = .next t ∧ t.run = .faulted .stackPointerOutOfRange) ∧
    (∃ t, exec (.call (regByte 0)) ((bytesAt [] 253).setReg 7 0#8) = .next t ∧
      t.run = .faulted .stackPointerOutOfRange) ∧
    (∃ t, exec .ret (State.reset.setReg 7 255#8) = .next t ∧ t.run = .faulted .stackPointerOutOfRange) ∧
    (∃ t, exec (.pop (regByte 0)) (State.reset.setReg 7 255#8) = .next t ∧ t.run = .faulted .stackPointerOutOfRange) ∧
    (∃ t, exec (.pop (regByte 7)) (withCell State.reset 244 255#8) = .next t ∧
      t.run = .faulted .stackPointerOutOfRange) ∧
    ∃ t, exec (.push (regByte 0)) (State.reset.setReg 7 1#8) = .next t ∧ t.run = .running :=
  ⟨⟨_, rfl, rfl⟩, ⟨_, rfl, rfl⟩, ⟨_, rfl, rfl⟩, ⟨_, rfl, rfl⟩, ⟨_, rfl, rfl⟩, _, rfl, rfl⟩

/-- The highest CALL that completes, the first that faults for its return address, and one that faults for its stack. -/
theorem witness_CallPushesTheReturnAddressAndJumps :
    ShortFormMet 0x50#8 ∧
    ((bytesAt [] 253).pc.toNat + 2 ≤ 255 ∧ ((bytesAt [] 253).setReg 7 1#8).getReg 7 ≠ 0#8) ∧
    255 < (bytesAt [] 254).pc.toNat + 2 ∧
    ((bytesAt [] 253).setReg 7 0#8).pc.toNat + 2 ≤ 255 ∧ ((bytesAt [] 253).setReg 7 0#8).getReg 7 = 0#8 := by decide

theorem witness_RetPopsTheProgramCounter :
    StandsAt 0x11#8 255 ∧ (State.reset.setReg 7 254#8).getReg 7 ≠ 255#8 ∧ (State.reset.setReg 7 255#8).getReg 7 = 255#8 := by
  decide

theorem witness_JmpReplacesTheProgramCounter : ShortFormMet 0x54#8 := by decide

theorem witness_JeqJumpsWhenEqual :
    ShortFormMet 0x55#8 ∧ (State.reset.setEqual true).equalFlag = true ∧ State.reset.equalFlag = false := by decide

theorem witness_JneJumpsWhenUnequal :
    ShortFormMet 0x56#8 ∧ State.reset.equalFlag = false ∧ (State.reset.setEqual true).equalFlag = true := by decide

theorem witness_BranchAfterCmpFollowsTheComparison :
    State.reset.getReg 0 = State.reset.getReg 1 ∧ State.reset.getReg 0 ≠ State.reset.getReg 7 := by decide

/-- A subroutine that changed a register and the output, and nothing the return needs. -/
theorem witness_RetReturnsBehindTheCall :
    ∃ t u : State, (bytesAt [] 253).pc.toNat + 2 ≤ 255 ∧ (bytesAt [] 253).getReg 7 ≠ 0#8 ∧
      exec (.call (regByte 1)) (bytesAt [] 253) = .next t ∧ u = (t.setReg 0 9#8).emit 9#8 ∧ u.getReg 7 = t.getReg 7 ∧
      u.mem.read (t.getReg 7).toNat = t.mem.read (t.getReg 7).toNat :=
  ⟨_, _, by decide, by decide, rfl, rfl, by decide, rfl⟩

theorem witness_HltHaltsAndChangesNothingElse : StandsAt 0x01#8 0 ∧ StandsAt 0x01#8 255 := by decide

theorem witness_OnlyHltHaltsWithHlt :
    (∃ t, step (bytesAt [0x01#8] 255) = .next t ∧ t.run = .halted .hlt) ∧
    ∃ t, step (bytesAt [] 256) = .next t ∧ t.run ≠ .halted .hlt :=
  ⟨⟨_, rfl, rfl⟩, _, rfl, by decide⟩

/-- `PUSH r7` at 10 with the stack pointer at 13 stores 12 at 12, where the next instruction begins. -/
theorem witness_StoredByteIsFetchedByTheNextStep :
    InstrStands ((bytesAt [0x45#8, 7#8] 10).setReg 7 13#8) (.push (regByte 7)) ∧
    ((bytesAt [0x45#8, 7#8] 10).setReg 7 13#8).getReg 7 ≠ 0#8 ∧
    ((bytesAt [0x45#8, 7#8] 10).setReg 7 13#8).pushAddr.toNat =
      ((bytesAt [0x45#8, 7#8] 10).setReg 7 13#8).pc.toNat + 2 := by decide

end Sys2Proof.Tests
end

