-- ==== Sys2Proof/Proofs/State.lean ====
section
/-! PROOFS. The run state at reset, in a terminal state and after the loader (spec/10_state.md R41). -/

namespace Sys2Proof.Proofs

open Sys2Proof Sys2Proof.Machine

/-- What the loader answers when it takes the image: nothing but memory is written (70_reset_and_hazards.md R203). -/
theorem loadImage_next_eq {image : List Byte} {s t : State} (h : loadImage image s = .next t) :
    image.length ≤ Config.memSize ∧ t = { s with mem := s.mem.writeList 0 image } := by
  unfold loadImage at h
  split at h
  · next hlen => cases h; exact ⟨hlen, rfl⟩
  · cases h

/-- Settles O3: a step with a next state began in Running (`running_of_step`), and the loader writes only memory. -/
theorem terminalStatesTakeNoStep : Obligations.TerminalStatesTakeNoStep := by
  refine ⟨rfl, fun s t hended hstep => hended (running_of_step hstep), fun _ => rfl, fun image s t hload => ?_⟩
  obtain ⟨-, rfl⟩ := loadImage_next_eq hload
  rfl

end Sys2Proof.Proofs
end

