-- ==== Sys2Proof/Proofs/Encoding.lean ====
section
/-! PROOFS. The opcode map and the operand count in an opcode byte (spec/30_encoding.md R79). -/

namespace Sys2Proof.Proofs

open Sys2Proof Sys2Proof.Machine

theorem opcode_mem_opcodeTable (i : Instr) : i.opcode ∈ opcodeTable.map (·.opcode) := by
  obtain ⟨row, hrow, -⟩ := rowBuilds i
  obtain ⟨hmem, hop⟩ := rowOf_some hrow
  exact List.mem_map.mpr ⟨row, hmem, hop⟩

theorem opcodeTable_opcodes_nodup : (opcodeTable.map (·.opcode)).Nodup := by decide

/-- No byte of the opcode map has `11` in its two top bits (30_encoding.md R75). -/
theorem operandCount_le_two_of_mem : ∀ ir ∈ opcodeTable.map (·.opcode), operandCount ir ≤ 2 := by
  decide

/-- The engine's bound of two fetched bytes cuts nothing off an instruction's operand count. -/
theorem operandCount_opcode (i : Instr) : operandCount i.opcode = i.operands.length :=
  have hle : operandCount i.opcode ≤ 2 := operandCount_le_two_of_mem _ (opcode_mem_opcodeTable i)
  calc operandCount i.opcode
    _ = operandsFetched i.opcode := (Nat.min_eq_left hle).symm
    _ = i.operands.length := operandsFetched_opcode i

/-- Settles O11: bits 7:6 count the operand bytes (`operandCount_opcode`), and every instruction has a row in the map
(`opcode_mem_opcodeTable`), whose rows carry distinct bytes. -/
theorem opcodeBitsCountTheOperands : Obligations.OpcodeBitsCountTheOperands := by
  refine ⟨fun i => ?_, ⟨rfl, opcodeTable_opcodes_nodup, opcode_mem_opcodeTable⟩, rfl⟩
  rw [← operandCount_eq, operandCount_opcode]

end Sys2Proof.Proofs
end

