-- ==== Sys2Proof/Proofs/Engine.lean ====
section
/-! PROOFS. The two ways an executed instruction can go: it ends the run and changes nothing else, or it completes and
leaves `pc` on its track (spec/40_engine.md R95, R99). -/

namespace Sys2Proof.Proofs

open Sys2Proof Sys2Proof.Machine

/-! ### The two tracks of `pc` as numbers -/

/-- From an address of memory the default advance stays below 512, so the 9 bits of `pc` do not wrap (10_state.md R32). -/
theorem advance_pc_toNat {s : State} {n : Nat} (hpc : s.pc.toNat ≤ 255) (hn : n ≤ 3) :
    (s.advance n).pc.toNat = s.pc.toNat + n + 1 := by
  rw [State.advance_pc, BitVec.toNat_add, BitVec.toNat_ofNat]
  omega

theorem jump_pc_toNat (s : State) (target : Byte) : (s.jump target).pc.toNat = target.toNat := by
  rw [State.jump_pc, BitVec.toNat_setWidth]
  omega

/-! ### Ending and completing -/

/-- The run ends between `s` and `t`, and nothing but RUN changes. -/
def EndsRunOnly (s t : State) : Prop := ∃ ending, ending ≠ .running ∧ t = { s with run := ending }

/-- Instruction `i`, executed in `s`, completes in `t`: RUN is as before, and from an address of memory `pc` is left where
`nextPc` says. -/
def Completes (i : Instr) (s t : State) : Prop := t.run = s.run ∧ (s.pc.toNat ≤ 255 → t.pc.toNat = nextPc s i)

variable {i : Instr} {s t u : State}

theorem EndsRunOnly.with_run {ending : RunState} (h : ending ≠ .running) : EndsRunOnly s { s with run := ending } :=
  ⟨ending, h, rfl⟩

theorem EndsRunOnly.pc_eq (h : EndsRunOnly s t) : t.pc = s.pc := by
  obtain ⟨_, -, rfl⟩ := h
  rfl

theorem EndsRunOnly.ended (h : EndsRunOnly s t) : t.Ended := by
  obtain ⟨_, hending, rfl⟩ := h
  exact hending

theorem Completes.advance {n : Nat} (hrun : u.run = s.run) (hpc : u.pc = s.pc) (hn : n ≤ 3)
    (hnext : nextPc s i = s.pc.toNat + n + 1) : Completes i s (u.advance n) :=
  ⟨hrun, fun hle => by rw [advance_pc_toNat (hpc ▸ hle) hn, hpc, hnext]⟩

/-- The default advance is by the operand count of the opcode byte, which is the number of operand bytes. -/
theorem Completes.advance_operands (hrun : u.run = s.run) (hpc : u.pc = s.pc)
    (hnext : nextPc s i = s.pc.toNat + i.opcode.toNat / 64 + 1) : Completes i s (u.advance i.operands.length) := by
  rw [← operandCount_eq] at hnext
  rw [← operandCount_opcode]
  exact .advance hrun hpc (operandCount_le_three _) hnext

theorem Completes.jump {target : Byte} (hrun : u.run = s.run) (hnext : nextPc s i = target.toNat) :
    Completes i s (u.jump target) :=
  ⟨hrun, fun _ => by rw [jump_pc_toNat, hnext]⟩

/-- An instruction with one answer, which completes. -/
theorem completes_of_next (h : (.next u : Result) = .next t) (hu : Completes i s u) :
    EndsRunOnly s t ∨ Completes i s t := by
  cases h
  exact .inr hu

/-- An instruction that ends the run on a condition and completes otherwise. -/
theorem endsRunOnly_or_completes_of_ite {c : Prop} [Decidable c] {ending : RunState}
    (h : (if c then .next { s with run := ending } else .next u : Result) = .next t) (hending : ending ≠ .running)
    (hu : Completes i s u) : EndsRunOnly s t ∨ Completes i s t := by
  split at h
  · cases h; exact .inl (.with_run hending)
  · exact completes_of_next h hu

/-! ### The transfers of control -/

/-- The target of CALL is read after the push, so `CALL r7` jumps to the decremented stack pointer (44_control.md R151). -/
theorem nextPc_call (s : State) (r : RegIx) :
    nextPc s (.call (regByte r)) = ((s.setReg 7 s.pushAddr).getReg r).toNat := by
  simp only [nextPc, operandReg_regByte, State.getReg_setReg, State.pushAddr_eq]

theorem call_endsRunOnly_or_completes {r : RegIx} (h : exec (.call (regByte r)) s = .next t) :
    EndsRunOnly s t ∨ Completes (.call (regByte r)) s t := by
  have h := (execCall_eq s r).symm.trans h
  split at h
  · cases h; exact .inl (.with_run nofun)
  · exact endsRunOnly_or_completes_of_ite h nofun (.jump rfl (nextPc_call s r))

theorem jeq_completes (s : State) (r : RegIx) :
    Completes (.jeq (regByte r)) s (if s.equalFlag then s.jump (s.getReg r) else s.advance 1) := by
  split
  · next he => exact .jump rfl (by simp only [nextPc, operandReg_regByte, if_pos he])
  · next he => exact .advance rfl rfl (by decide) (by simp only [nextPc, if_neg he])

theorem jne_completes (s : State) (r : RegIx) :
    Completes (.jne (regByte r)) s (if s.equalFlag then s.advance 1 else s.jump (s.getReg r)) := by
  split
  · next he => exact .advance rfl rfl (by decide) (by simp only [nextPc, if_pos he])
  · next he => exact .jump rfl (by simp only [nextPc, operandReg_regByte, if_neg he])

/-! ### Every instruction -/

/-- Each line cites the instruction's equation, then says on which track it leaves `pc` when it completes. -/
theorem exec_endsRunOnly_or_completes (h : exec i s = .next t) : EndsRunOnly s t ∨ Completes i s t := by
  rcases exec_cases h with ⟨-, rfl⟩ | ⟨-, rfl | rfl |
    ⟨r, rfl | rfl | rfl | rfl | rfl | rfl | rfl | rfl | rfl | ⟨b, rfl⟩⟩ |
    ⟨r, q, rfl | rfl | rfl | rfl | rfl | rfl | rfl⟩⟩
  case inl => exact .inl (.with_run nofun)
  · cases (execHlt_eq s).symm.trans h
    exact .inl (.with_run nofun)
  · exact endsRunOnly_or_completes_of_ite ((execRet_eq s).symm.trans h) nofun (.jump rfl rfl)
  · exact endsRunOnly_or_completes_of_ite ((execPush_eq s r).symm.trans h) nofun (.advance_operands rfl rfl rfl)
  · exact endsRunOnly_or_completes_of_ite ((execPop_eq s r).symm.trans h) nofun (.advance_operands rfl rfl rfl)
  · exact completes_of_next ((execPrn_eq s r).symm.trans h) (.advance_operands rfl rfl rfl)
  · exact call_endsRunOnly_or_completes h
  · exact completes_of_next ((execJmp_eq s r).symm.trans h) (.jump rfl (by simp only [nextPc, operandReg_regByte]))
  · exact completes_of_next ((execJeq_eq s r).symm.trans h) (jeq_completes s r)
  · exact completes_of_next ((execJne_eq s r).symm.trans h) (jne_completes s r)
  · exact completes_of_next ((execInc_eq s r).symm.trans h) (.advance_operands rfl rfl rfl)
  · exact completes_of_next ((execDec_eq s r).symm.trans h) (.advance_operands rfl rfl rfl)
  · exact completes_of_next ((execLdi_eq s r b).symm.trans h) (.advance_operands rfl rfl rfl)
  · exact completes_of_next ((execLd_eq s r q).symm.trans h) (.advance_operands rfl rfl rfl)
  · exact completes_of_next ((execAdd_eq s r q).symm.trans h) (.advance_operands rfl rfl rfl)
  · exact completes_of_next ((execMul_eq s r q).symm.trans h) (.advance_operands rfl rfl rfl)
  · exact endsRunOnly_or_completes_of_ite ((execDiv_eq s r q).symm.trans h) nofun (.advance_operands rfl rfl rfl)
  · exact endsRunOnly_or_completes_of_ite ((execMod_eq s r q).symm.trans h) nofun (.advance_operands rfl rfl rfl)
  · exact completes_of_next ((execCmp_eq s r q).symm.trans h) (.advance_operands rfl rfl rfl)
  · exact completes_of_next ((execAnd_eq s r q).symm.trans h) (.advance_operands rfl rfl rfl)

theorem execUnknown_pc_toNat {ir : Byte} (hpc : s.pc.toNat ≤ 255) (h : execUnknown ir s = .next t) :
    t.pc.toNat = s.pc.toNat + ir.toNat / 64 + 1 := by
  cases (execUnknown_eq s ir).symm.trans h
  rw [advance_pc_toNat hpc (operandCount_le_three ir), operandCount_eq]

/-- Settles O20: RUN after the instruction tells which of the two ways of `exec_endsRunOnly_or_completes` it went. -/
theorem completedInstructionsLeavePcOnOneTrack : Obligations.CompletedInstructionsLeavePcOnOneTrack := by
  refine ⟨fun i s t _ hpc h hrun => ?completed, fun ir s t => execUnknown_pc_toNat, fun i s t hrun h hended => ?ended⟩
  case completed =>
    rcases exec_endsRunOnly_or_completes h with hends | ⟨-, hnext⟩
    · exact absurd hrun hends.ended
    · exact hnext hpc
  case ended =>
    rcases exec_endsRunOnly_or_completes h with hends | ⟨hsame, -⟩
    · exact hends.pc_eq
    · exact absurd (hsame.trans hrun) hended

end Sys2Proof.Proofs
end

