-- ==== Sys2Proof/Proofs/DataMovement.lean ====
section
/-! PROOFS. Data movement and output (spec/41_data_movement.md), after the two faults that every instruction with operands
can meet before it has an effect (spec/60_exceptions.md R183, R184). -/

namespace Sys2Proof.Proofs

open Sys2Proof Sys2Proof.Machine

/-! ### The operand fetch fault and the register fault -/

/-- Of the ways a cycle can go, an opcode byte in memory whose last operand byte is not in memory leaves only the fault. -/
theorem operandFetchFaultsFrom {ir : Byte} {p : Nat} (hpast : 256 ≤ p + operandsFetched ir) :
    OperandFetchFaultsFrom ir p := by
  rintro s hrun ⟨hpc, rfl⟩ hp
  rw [step_of_running hrun]
  rcases cycle_cases s with ⟨hge, -⟩ | ⟨_, -, rfl, ⟨-, hfault⟩ | ⟨hfit, -⟩ | ⟨hfit, -⟩⟩
  · rw [memSize_eq] at hge; omega
  · exact hfault
  · rw [memSize_eq] at hfit; omega
  · rw [memSize_eq] at hfit; omega

theorem namesRegister_of_seven_lt {a : Byte} (h : 7 < a.toNat) : namesRegister a = false :=
  decide_eq_false (Nat.not_lt.mpr h)

/-- For the formats R and RI, whose only register operand is `a`. -/
theorem badRegisterFaults {mk : Byte → Instr} (hmk : ∀ a, (mk a).wellFormed = namesRegister a) :
    BadRegisterFaults mk :=
  fun s a ha => exec_of_wellFormed_eq_false s ((hmk a).trans (namesRegister_of_seven_lt ha))

/-- For the format RR. -/
theorem badRegistersFault {mk : Byte → Byte → Instr}
    (hmk : ∀ a b, (mk a b).wellFormed = (namesRegister a && namesRegister b)) : BadRegistersFault mk :=
  fun s a b hab => exec_of_wellFormed_eq_false s <| (hmk a b).trans <| Bool.and_eq_false_iff.mpr <|
    hab.imp namesRegister_of_seven_lt namesRegister_of_seven_lt

/-! ### The frame of a register write -/

theorem sameRegsBut_setReg (s : State) (r : RegIx) (v : Byte) : SameRegsBut s (s.setReg r v) [r] :=
  fun _ hq => s.getReg_setReg_of_ne (List.ne_of_not_mem_cons hq) v

/-- A register write and the default advance: what an instruction that computes one register does, and all it does. -/
theorem setReg_advance_frame {s t : State} {r : RegIx} {v : Byte} {n : Nat} (ht : t = (s.setReg r v).advance n) :
    t.getReg r = v ∧ SameRegsBut s t [r] ∧ t.pc = s.pc + BitVec.ofNat 9 (n + 1) ∧ t.fl = s.fl ∧ SameMem s t ∧
      t.out = s.out ∧ t.run = s.run := by
  subst ht
  exact ⟨s.getReg_setReg_self r v, sameRegsBut_setReg s r v, s.advance_pc n, rfl, fun _ => rfl, rfl, rfl⟩

/-! ### LDI, LD and PRN -/

/-- Settles O26: from pc = 254 on the second of LDI's two operand bytes is missing, the register check sees `a` alone, and
`execLdi_eq` is a register write and an advance. -/
theorem ldiLoadsTheImmediate : Obligations.LdiLoadsTheImmediate :=
  ⟨fun _ _ => rfl, operandFetchFaultsFrom (by decide), fun _ => badRegisterFaults fun _ => rfl,
    fun s ra b => ⟨_, execLdi_eq s ra b, setReg_advance_frame rfl⟩⟩

/-- Settles O27: as LDI, with both operands checked and the value written that `b` had before the write. -/
theorem ldCopiesARegister : Obligations.LdCopiesARegister :=
  ⟨fun _ _ => rfl, operandFetchFaultsFrom (by decide), badRegistersFault fun _ _ => rfl,
    fun s ra rb => ⟨_, execLd_eq s ra rb, setReg_advance_frame rfl⟩⟩

/-- Settles O28: PRN's one operand byte is missing at pc = 255, and `execPrn_eq` appends to OUT and advances, which no
register and no byte of memory sees. -/
theorem prnEmitsTheRegister : Obligations.PrnEmitsTheRegister := by
  refine ⟨fun _ => rfl, operandFetchFaultsFrom (by decide), badRegisterFaults fun _ => rfl,
    fun s ra => ⟨_, execPrn_eq s ra, ?out, ?regs, ?pc, rfl, fun _ => rfl, rfl⟩⟩
  case out => exact s.emit_out (s.getReg ra)
  case regs => exact fun _ _ => rfl
  case pc => exact (s.emit (s.getReg ra)).advance_pc 1

end Sys2Proof.Proofs
end

