-- ==== Sys2Proof/Proofs/Alu.lean ====
section
/-! PROOFS. The ALU instructions (spec/42_alu.md): the value each computes, in the terms of its rule, and its frame. All but
CMP write the register of their first operand; the value is read off the instruction's equation in word arithmetic. -/

namespace Sys2Proof.Proofs

open Sys2Proof Sys2Proof.Machine

/-! ### A claim about the register written -/

/-- An instruction that writes one register and advances: the register then holds the value written, so what is claimed of
the register is a claim `P` about that value alone, and nothing else changes. -/
theorem exists_next_of_setReg_advance {i : Instr} {s : State} {r : RegIx} {v : Byte} {n : Nat} (P : Byte → Prop)
    (hexec : exec i s = .next ((s.setReg r v).advance n)) (hv : P v) :
    ∃ t, exec i s = .next t ∧ P (t.getReg r) ∧ SameRegsBut s t [r] ∧ t.pc = s.pc + BitVec.ofNat 9 (n + 1) ∧
      t.fl = s.fl ∧ SameMem s t ∧ t.out = s.out ∧ t.run = s.run := by
  obtain ⟨hval, hframe⟩ := setReg_advance_frame (s := s) (r := r) (v := v) (n := n) rfl
  exact ⟨_, hexec, hval.symm ▸ hv, hframe⟩

/-! ### ADD, MUL and AND -/

/-- Settles O30: addition of words is addition modulo 256. -/
theorem addWritesTheSumModulo256 : Obligations.AddWritesTheSumModulo256 :=
  ⟨fun _ _ => rfl, operandFetchFaultsFrom (by decide), badRegistersFault fun _ _ => rfl,
    fun s ra rb => exists_next_of_setReg_advance
      (fun v => v.toNat = ((s.getReg ra).toNat + (s.getReg rb).toNat) % 256)
      (execAdd_eq s ra rb) (BitVec.toNat_add _ _)⟩

/-- Settles O31: multiplication of words is multiplication modulo 256, and the byte emitted is the one written. -/
theorem mulWritesAndEmitsTheProductModulo256 : Obligations.MulWritesAndEmitsTheProductModulo256 := by
  refine ⟨fun _ _ => rfl, operandFetchFaultsFrom (by decide), badRegistersFault fun _ _ => rfl,
    fun s ra rb => ⟨_, execMul_eq s ra rb, ?product, ?out, sameRegsBut_setReg s ra _, ?pc, rfl, fun _ => rfl, rfl⟩⟩
  case product =>
    rw [State.getReg_advance, State.getReg_emit, State.getReg_setReg_self]
    exact BitVec.toNat_mul _ _
  case out =>
    rw [State.getReg_advance, State.getReg_emit, State.getReg_setReg_self, State.advance_out, State.emit_out,
      State.setReg_out]
  case pc => exact s.advance_pc 2

/-- Settles O32: each bit of the conjunction of two words is the conjunction of their bits. -/
theorem andWritesTheBitwiseConjunction : Obligations.AndWritesTheBitwiseConjunction :=
  ⟨fun _ _ => rfl, operandFetchFaultsFrom (by decide), badRegistersFault fun _ _ => rfl,
    fun s ra rb => exists_next_of_setReg_advance
      (fun v => ∀ k, k < 8 → v.getLsbD k = ((s.getReg ra).getLsbD k && (s.getReg rb).getLsbD k))
      (execAnd_eq s ra rb) fun _ _ => BitVec.getLsbD_and⟩

/-! ### DIV -/

/-- Settles O34: `execDiv_eq` splits on the divisor; division of words is the floor of the unsigned quotient. -/
theorem divWritesTheQuotientOrHalts : Obligations.DivWritesTheQuotientOrHalts := by
  refine ⟨fun _ _ => rfl, operandFetchFaultsFrom (by decide), badRegistersFault fun _ _ => rfl,
    fun s ra rb hdivisor => ?quotient, fun s ra rb hzero => ?halt⟩
  case quotient =>
    exact exists_next_of_setReg_advance (fun v => v.toNat = (s.getReg ra).toNat / (s.getReg rb).toNat)
      ((execDiv_eq s ra rb).trans (if_neg hdivisor)) BitVec.toNat_udiv
  case halt => exact (execDiv_eq s ra rb).trans (if_pos hzero)

/-! ### INC and DEC -/

/-- Settles O35: as ADD, with 1 for the second register; the equation holds for r7 as for any other. -/
theorem incAddsOneModulo256 : Obligations.IncAddsOneModulo256 :=
  ⟨fun _ => rfl, operandFetchFaultsFrom (by decide), badRegisterFaults fun _ => rfl,
    fun s ra => exists_next_of_setReg_advance (fun v => v.toNat = ((s.getReg ra).toNat + 1) % 256)
      (execInc_eq s ra) (BitVec.toNat_add _ _)⟩

/-- The predecessor of a byte is the integer below it modulo 256, so 255 for 0 (42_alu.md R127). -/
theorem toNat_sub_one_eq_emod (x : Byte) : ((x - 1#8).toNat : Int) = (x.toNat - 1 : Int) % 256 := by
  rw [← aluDec_eq]
  exact trunc8_toNat _

/-- Settles O36: the integer subtraction is narrowed once (`toNat_sub_one_eq_emod`). -/
theorem decSubtractsOneModulo256 : Obligations.DecSubtractsOneModulo256 :=
  ⟨fun _ => rfl, operandFetchFaultsFrom (by decide), badRegisterFaults fun _ => rfl,
    fun s ra => exists_next_of_setReg_advance (fun v => (v.toNat : Int) = ((s.getReg ra).toNat - 1 : Int) % 256)
      (execDec_eq s ra) (toNat_sub_one_eq_emod _)⟩

/-! ### CMP -/

@[simp] theorem equalFlag_advance (s : State) (n : Nat) : (s.advance n).equalFlag = s.equalFlag := rfl

/-- Settles O37: the equal flag reads back as the comparison (`equalFlag_setEqual`), and no other bit of FL is written
(`withEqualBit_other`). -/
theorem cmpWritesTheEqualFlag : Obligations.CmpWritesTheEqualFlag := by
  refine ⟨fun _ _ => rfl, operandFetchFaultsFrom (by decide), badRegistersFault fun _ _ => rfl,
    fun s ra rb => ⟨_, execCmp_eq s ra rb, ?flag, ?otherBits, fun _ _ => rfl, ?pc, fun _ => rfl, rfl, rfl⟩⟩
  case flag => rw [equalFlag_advance, equalFlag_setEqual, beq_iff_eq]
  case otherBits =>
    intro k hk _
    exact withEqualBit_other s.fl _ (Nat.ne_of_gt hk)
  case pc => exact s.advance_pc 2

end Sys2Proof.Proofs
end

