-- ==== Sys2Proof/Proofs/Stack.lean ====
section
/-! PROOFS. PUSH and POP (spec/43_stack.md): each reads registers after its own earlier writes, so with r7 as
operand PUSH stores the decremented pointer and POP increments the byte it has loaded. -/

namespace Sys2Proof.Proofs

open Sys2Proof Sys2Proof.Machine

variable (s : State)

/-! ### PUSH -/

theorem sameMemBut_store (a v : Byte) : SameMemBut s (s.store a v) a.toNat :=
  fun _ hne => Memory.read_write_of_ne s.mem v hne

/-- Settles O41: `execPush_eq` splits on the stack pointer; from one that is not 0 it writes `x[7]`, stores the operand
as read after that write, and advances. -/
theorem pushDecrementsThenStores : Obligations.PushDecrementsThenStores := by
  refine ⟨fun _ => rfl, operandFetchFaultsFrom (by decide), badRegisterFaults fun _ => rfl,
    fun s ra hsp => ?completes, fun s ra hsp => (execPush_eq s ra).trans (if_pos hsp)⟩
  refine ⟨_, (execPush_eq s ra).trans (if_neg hsp), ?below, ?pointer, ?stored, ?mem, ?regs, ?pc, rfl, rfl, rfl⟩
  case below =>
    rw [State.getReg_advance, State.getReg_store, State.getReg_setReg_self]
    exact State.pushAddr_toNat hsp
  case pointer => exact s.getReg_setReg_self 7 s.pushAddr
  case stored =>
    rw [← State.getReg_setReg]
    exact Memory.read_write_self ..
  case mem => exact sameMemBut_store (s.setReg 7 s.pushAddr) s.pushAddr _
  case regs => exact sameRegsBut_setReg s 7 s.pushAddr
  case pc => exact s.advance_pc 1

/-! ### POP -/

/-- The stack pointer after a register write, that register being r7 or not: the base of POP's increment. -/
theorem getReg_seven_setReg (r : RegIx) (v : Byte) :
    (s.setReg r v).getReg 7 = if r = 7 then v else s.getReg 7 := by
  simp only [State.getReg_setReg, eq_comm]

/-- An increment that the stack range check lets through does not wrap (43_stack.md R143). -/
theorem toNat_add_one_of_ne_top {x : Byte} (h : x ≠ 255#8) : (x + 1#8).toNat = x.toNat + 1 := by
  bv_omega

theorem sameRegsBut_setReg_setReg (r q : RegIx) (v w : Byte) :
    SameRegsBut s ((s.setReg r v).setReg q w) [r, q] := by
  intro p hp
  obtain ⟨hr, hq⟩ := List.ne_and_not_mem_of_not_mem_cons hp
  rw [State.getReg_setReg_of_ne _ (List.ne_of_not_mem_cons hq), State.getReg_setReg_of_ne _ hr]

/-- Settles O42: `execPop_eq` splits on the stack pointer as it stands after the load (`getReg_seven_setReg`); from a
base that is not 255 it is two register writes and an advance. -/
theorem popLoadsThenIncrements : Obligations.PopLoadsThenIncrements := by
  refine ⟨fun _ => rfl, operandFetchFaultsFrom (by decide), badRegisterFaults fun _ => rfl,
    fun s ra v base hv hbase htop => ?completes, fun s ra htop => ?fault⟩
  case fault => exact (execPop_eq s ra).trans (if_pos ((getReg_seven_setReg s ra _).trans htop))
  case completes =>
    have hload : s.load (s.getReg 7) = v := hv.symm
    have hpointer : (s.setReg ra v).getReg 7 = base := (getReg_seven_setReg s ra v).trans hbase.symm
    have hexec := execPop_eq s ra
    rw [hload, hpointer, if_neg htop] at hexec
    refine ⟨_, hexec, ?value, ?above, sameRegsBut_setReg_setReg s ra 7 v _, fun _ => rfl, ?pc, rfl, rfl, rfl⟩
    case value =>
      intro hra
      rw [State.getReg_advance, State.getReg_setReg_of_ne _ hra, State.getReg_setReg_self]
    case above =>
      rw [State.getReg_advance, State.getReg_setReg_self]
      exact toNat_add_one_of_ne_top htop
    case pc => exact s.advance_pc 1

end Sys2Proof.Proofs
end

