-- ==== Sys2Proof/Proofs/Control.lean ====
section
/-! PROOFS. Control transfer (spec/44_control.md): RET pops one byte into `pc`; JMP, JEQ and JNE write `pc` and nothing
else, JEQ and JNE choosing between the register's target and the default advance. -/

namespace Sys2Proof.Proofs

open Sys2Proof Sys2Proof.Machine

/-! ### RET -/

/-- An instruction without operand bytes is executed wherever its opcode byte stands: whatever follows that byte is left
alone by the decoder and cannot be missing. -/
theorem step_of_opcodeAtPc {i : Instr} {s : State} (hoperands : i.operands = []) (hrun : s.run = .running)
    (hop : s.OpcodeAtPc i.opcode) : step s = exec i s := by
  obtain ⟨hpc, hir⟩ := hop
  obtain ⟨rest, hfetch, -⟩ := fetch_in_memory (Nat.lt_succ_of_le hpc) hir
  obtain ⟨row, hrow, hbuild⟩ := rowBuilds i
  have hdecode : decode (fetch s) = .ok (.instr i) := by
    rw [hoperands] at hbuild
    rw [hfetch, decode_of_row hrow]
    exact hbuild rest
  rw [step_of_running hrun]
  simp only [cycle, hdecode]

/-- Settles O47: RET has no operand bytes to miss (`step_of_opcodeAtPc`), and `execRet_eq` splits on the stack pointer; from
one that is not 255 it writes `x[7]` and jumps to the byte at its old value. -/
theorem retPopsTheProgramCounter : Obligations.RetPopsTheProgramCounter := by
  refine ⟨rfl, fun s hrun hop => step_of_opcodeAtPc (i := .ret) rfl hrun hop, fun s hsp => ?completes,
    fun s hsp => (execRet_eq s).trans (if_pos hsp)⟩
  refine ⟨_, (execRet_eq s).trans (if_neg hsp), jump_pc_toNat _ _, ?above, sameRegsBut_setReg s 7 _, fun _ => rfl, rfl,
    rfl, rfl⟩
  case above =>
    rw [State.getReg_jump, State.getReg_setReg_self]
    exact toNat_add_one_of_ne_top hsp

/-! ### JMP -/

/-- A write of `pc` is seen by no other piece of state. -/
theorem with_pc_frame (s : State) (target : PcWord) :
    SameRegsBut s { s with pc := target } [] ∧ { s with pc := target }.fl = s.fl ∧ SameMem s { s with pc := target } ∧
      { s with pc := target }.out = s.out ∧ { s with pc := target }.run = s.run :=
  ⟨fun _ _ => rfl, rfl, fun _ => rfl, rfl, rfl⟩

/-- Settles O48: `execJmp_eq` is a jump and no more. -/
theorem jmpReplacesTheProgramCounter : Obligations.JmpReplacesTheProgramCounter :=
  ⟨fun _ => rfl, operandFetchFaultsFrom (by decide), badRegisterFaults fun _ => rfl,
    fun s ra => ⟨_, execJmp_eq s ra, jump_pc_toNat s _, with_pc_frame s _⟩⟩

/-! ### JEQ and JNE -/

/-- A conditional branch: it jumps when `taken` holds, advances past its operand byte when `untaken` excludes that, and
writes nothing but `pc` either way. -/
theorem exists_next_of_branch {i : Instr} {s : State} {target : Byte} {taken untaken : Prop} [Decidable taken]
    (hexec : exec i s = .next (if taken then s.jump target else s.advance 1)) (hexcl : untaken → ¬taken) :
    ∃ t, exec i s = .next t ∧ (taken → t.pc.toNat = target.toNat) ∧ (untaken → t.pc = s.pc + 2) ∧
      SameRegsBut s t [] ∧ t.fl = s.fl ∧ SameMem s t ∧ t.out = s.out ∧ t.run = s.run := by
  by_cases h : taken
  · rw [if_pos h] at hexec
    exact ⟨_, hexec, fun _ => jump_pc_toNat s target, fun hun => absurd h (hexcl hun), with_pc_frame s _⟩
  · rw [if_neg h] at hexec
    exact ⟨_, hexec, fun htaken => absurd htaken h, fun _ => s.advance_pc 1, with_pc_frame s _⟩

/-- Settles O49: `execJeq_eq` is the branch taken on a set equal flag. -/
theorem jeqJumpsWhenEqual : Obligations.JeqJumpsWhenEqual :=
  ⟨fun _ => rfl, operandFetchFaultsFrom (by decide), badRegisterFaults fun _ => rfl,
    fun s ra => exists_next_of_branch (execJeq_eq s ra) ne_true_of_eq_false⟩

/-- JNE as the branch taken on a clear equal flag, the complement of JEQ's. -/
theorem exec_jne_of_clear (s : State) (ra : RegIx) :
    exec (.jne (regByte ra)) s = .next (if s.equalFlag = false then s.jump (s.getReg ra) else s.advance 1) := by
  refine (execJne_eq s ra).trans ?_
  cases s.equalFlag <;> rfl

/-- Settles O50: as JEQ, the equal flag read the other way (`exec_jne_of_clear`). -/
theorem jneJumpsWhenUnequal : Obligations.JneJumpsWhenUnequal :=
  ⟨fun _ => rfl, operandFetchFaultsFrom (by decide), badRegisterFaults fun _ => rfl,
    fun s ra => exists_next_of_branch (exec_jne_of_clear s ra) ne_false_of_eq_true⟩

end Sys2Proof.Proofs
end

