-- ==== Sys2Proof/Proofs/System.lean ====
section
/-! PROOFS. HLT (spec/45_system.md): the one instruction that only writes RUN. -/

namespace Sys2Proof.Proofs

open Sys2Proof Sys2Proof.Machine

/-- Settles O53: `execHlt_eq` at every state; HLT has no operand bytes to miss (`step_of_opcodeAtPc`), so the step at its
opcode byte is that execution, at address 255 too. -/
theorem hltHaltsAndChangesNothingElse : Obligations.HltHaltsAndChangesNothingElse :=
  ⟨rfl, execHlt_eq, fun s hrun hop => (step_of_opcodeAtPc (i := .hlt) rfl hrun hop).trans (execHlt_eq s)⟩

end Sys2Proof.Proofs
end

