-- ==== Sys2Proof/Proofs/Exceptions.lean ====
section
/-! PROOFS. RUN after an instruction, and what raises Halted(Hlt) (spec/60_exceptions.md R176, R177). -/

namespace Sys2Proof.Proofs

open Sys2Proof Sys2Proof.Machine

variable {i : Instr} {s t u : State}

/-! ### RUN after an instruction -/

theorem run_of_next (h : (.next u : Result) = .next t) (hu : u.run = .running) : t.run = .running := by
  cases h
  exact hu

/-- An instruction that ends the run when two bytes are equal and completes otherwise. -/
theorem run_eq_endsIf_of_ite {x y : Byte} {ending : RunState}
    (h : (if x = y then .next { s with run := ending } else .next u : Result) = .next t) (hu : u.run = .running) :
    t.run = endsIf (x == y) ending := by
  by_cases hxy : x = y
  · rw [if_pos hxy] at h
    cases h
    simp only [endsIf, beq_iff_eq, if_pos hxy]
  · rw [if_neg hxy] at h
    simp only [endsIf, beq_iff_eq, if_neg hxy, run_of_next h hu]

/-- CALL checks the return address before the stack pointer, as `callRun` does (44_control.md R151). -/
theorem run_eq_callRun {r : RegIx} (hrun : s.run = .running) (h : exec (.call (regByte r)) s = .next t) :
    t.run = callRun s := by
  have h := (execCall_eq s r).symm.trans h
  unfold callRun
  split at h
  · next hpast => cases h; rw [if_pos hpast]
  · next hfits => rw [if_neg hfits]; exact run_eq_endsIf_of_ite h hrun

/-- `popBase` is the stack pointer as POP finds it after its load. -/
theorem popBase_eq (s : State) (r : RegIx) : popBase s r = (s.setReg r (s.load (s.getReg 7))).getReg 7 :=
  (getReg_seven_setReg s r _).symm

/-- `ownRun` is RUN after a well-formed instruction (60_exceptions.md R181, entry 4). Each line cites the instruction's
equation, then its ending condition if it has one. -/
theorem exec_run_eq_ownRun (hrun : s.run = .running) (hwf : i.wellFormed = true) (h : exec i s = .next t) :
    t.run = ownRun s i := by
  rcases exec_cases h with ⟨hbad, -⟩ | ⟨-, rfl | rfl |
    ⟨r, rfl | rfl | rfl | rfl | rfl | rfl | rfl | rfl | rfl | ⟨b, rfl⟩⟩ |
    ⟨r, q, rfl | rfl | rfl | rfl | rfl | rfl | rfl⟩⟩
  case inl => exact absurd (hwf.symm.trans hbad) nofun
  all_goals simp only [ownRun, operandReg_regByte]
  · cases (execHlt_eq s).symm.trans h; rfl
  · exact run_eq_endsIf_of_ite ((execRet_eq s).symm.trans h) hrun
  · exact run_eq_endsIf_of_ite ((execPush_eq s r).symm.trans h) hrun
  · rw [popBase_eq]; exact run_eq_endsIf_of_ite ((execPop_eq s r).symm.trans h) hrun
  · exact run_of_next ((execPrn_eq s r).symm.trans h) hrun
  · exact run_eq_callRun hrun h
  · exact run_of_next ((execJmp_eq s r).symm.trans h) hrun
  · exact run_of_next ((execJeq_eq s r).symm.trans h) ((jeq_completes s r).1.trans hrun)
  · exact run_of_next ((execJne_eq s r).symm.trans h) ((jne_completes s r).1.trans hrun)
  · exact run_of_next ((execInc_eq s r).symm.trans h) hrun
  · exact run_of_next ((execDec_eq s r).symm.trans h) hrun
  · exact run_of_next ((execLdi_eq s r b).symm.trans h) hrun
  · exact run_of_next ((execLd_eq s r q).symm.trans h) hrun
  · exact run_of_next ((execAdd_eq s r q).symm.trans h) hrun
  · exact run_of_next ((execMul_eq s r q).symm.trans h) hrun
  · exact run_eq_endsIf_of_ite ((execDiv_eq s r q).symm.trans h) hrun
  · exact run_eq_endsIf_of_ite ((execMod_eq s r q).symm.trans h) hrun
  · exact run_of_next ((execCmp_eq s r q).symm.trans h) hrun
  · exact run_of_next ((execAnd_eq s r q).symm.trans h) hrun

/-! ### Halted(Hlt) -/

theorem endsIf_ne_of_ne {cond : Bool} {ending e : RunState} (hrunning : .running ≠ e) (hending : ending ≠ e) :
    endsIf cond ending ≠ e := by
  cases cond
  · exact hrunning
  · exact hending

/-- Only HLT's own condition is Halted(Hlt): the others are faults, and DIV's is another halt. -/
theorem eq_hlt_of_ownRun (h : ownRun s i = .halted .hlt) : i = .hlt := by
  cases i with
  | hlt => rfl
  | div | mod | push | pop | ret => exact absurd h (endsIf_ne_of_ne nofun nofun)
  | call =>
    simp only [ownRun, callRun] at h
    split at h
    · cases h
    · exact absurd h (endsIf_ne_of_ne nofun nofun)
  | prn | jmp | jeq | jne | inc | dec | ldi | ld | add | mul | cmp | and => cases h

theorem eq_hlt_of_exec (hrun : s.run = .running) (h : exec i s = .next t) (ht : t.run = .halted .hlt) : i = .hlt := by
  rcases exec_cases h with ⟨-, rfl⟩ | ⟨hwf, -⟩
  · cases ht
  · exact eq_hlt_of_ownRun ((exec_run_eq_ownRun hrun hwf h).symm.trans ht)

/-- Settles O54: at HLT's opcode byte the step is O53's; conversely, of what a step can have been (`step_cases`), a
fetch without an opcode byte or with an operand byte missing ends the run otherwise, an unknown opcode does not end it, and an
instruction that raises Halted(Hlt) is HLT (`eq_hlt_of_exec`). -/
theorem onlyHltHaltsWithHlt : Obligations.OnlyHltHaltsWithHlt := by
  intro s t hstep
  obtain ⟨hrun, hcases⟩ := step_cases hstep
  constructor
  · intro ht
    rcases hcases with ⟨-, rfl⟩ | ⟨-, -, rfl⟩ | ⟨-, -, -, rfl⟩ | ⟨i, hbytes, hexec⟩
    · cases ht
    · cases ht
    · exact absurd (hrun.symm.trans ht) nofun
    · obtain rfl := eq_hlt_of_exec hrun hexec ht
      exact hbytes 0 Nat.zero_lt_one
  · intro hop
    obtain ⟨-, -, hhlt⟩ := hltHaltsAndChangesNothingElse
    cases (hhlt s hrun hop).symm.trans hstep
    rfl

end Sys2Proof.Proofs
end

