-- ==== Sys2Proof/Proofs/Decoder.lean ====
section
/-! PROOFS. What the decoder answers (spec/30_encoding.md R78, R81; 40_engine.md R93): an instruction on its encoding
and nowhere else, an unknown opcode on every byte outside the opcode map. -/

namespace Sys2Proof.Proofs

open Sys2Proof Sys2Proof.Machine

/-! ### Instructions -/

theorem decode_encode_append (i : Instr) (rest : List Byte) : decode (encode i ++ rest) = .ok (.instr i) := by
  obtain ⟨row, hrow, hbuild⟩ := rowBuilds i
  exact (decode_of_row hrow _).trans (hbuild rest)

theorem decode_encode (i : Instr) : decode (encode i) = .ok (.instr i) := by
  simpa only [List.append_nil] using decode_encode_append i []

/-- Of what decoding can answer, only a row of the map that has all its operand bytes is an instruction, and that one is
encoded by the bytes it was built from. -/
theorem encode_of_decode {bytes : List Byte} {i : Instr} (h : decode bytes = .ok (.instr i)) :
    ∃ rest, bytes = encode i ++ rest := by
  cases bytes with
  | nil => cases h
  | cons ir operands =>
    rcases decode_cons_cases ir operands with ⟨-, hd⟩ | ⟨-, -, hd⟩ | ⟨-, row, j, hrow, hbuild, hd⟩
    · cases hd.symm.trans h
    · cases hd.symm.trans h
    · cases hd.symm.trans h
      exact Shape.build_encode hrow hbuild

/-- Settles O10: `encode_of_decode` is the way from the answer to the bytes, `decode_encode_append` the way back. -/
theorem decodeAnswersExactlyTheEncodedInstruction : Obligations.DecodeAnswersExactlyTheEncodedInstruction := by
  refine fun bytes i => ⟨encode_of_decode, ?_⟩
  rintro ⟨rest, rfl⟩
  exact decode_encode_append i rest

/-- Settles O9: each word, written bit by bit, is the encoding of its instruction (`decode_encode`). -/
theorem instructionWordsDecodeAsTheOpcodeMapSays : Obligations.InstructionWordsDecodeAsTheOpcodeMapSays :=
  ⟨decode_encode .hlt, decode_encode .ret, decode_encode (.push 1), decode_encode (.call 2), decode_encode (.dec 3),
    decode_encode (.ldi 0 255), decode_encode (.div 1 2), decode_encode (.and 6 5)⟩

/-! ### Unknown opcodes -/

/-- A row of the map builds an instruction from any two bytes, and that instruction carries the row's byte. -/
theorem rowOf_eq_none {ir : Byte} (h : ∀ i : Instr, i.opcode ≠ ir) : rowOf ir = none := by
  cases hrow : rowOf ir with
  | none => rfl
  | some row =>
    have harity : row.shape.arity ≤ [0#8, 0#8].length := operandsFetched_of_row hrow ▸ operandsFetched_le_two ir
    obtain ⟨i, hbuild⟩ := Shape.build_enough harity
    obtain ⟨rest, hrest⟩ := Shape.build_encode hrow hbuild
    exact absurd (List.cons.inj hrest).1.symm (h i)

/-- With two bytes behind it an opcode byte is unknown exactly when the map does not hold it. -/
theorem decode_eq_unknown_iff (ir a b : Byte) :
    decode [ir, a, b] = .ok (.unknown ir) ↔ ir ∉ opcodeTable.map (·.opcode) := by
  constructor
  · intro h hmem
    obtain ⟨row, hrow, rfl⟩ := List.mem_map.mp hmem
    rcases decode_cons_cases row.opcode [a, b] with ⟨-, hd⟩ | ⟨-, hnone, -⟩ | ⟨-, _, _, -, -, hd⟩
    · cases hd.symm.trans h
    · exact absurd (beq_self_eq_true row.opcode) (List.find?_eq_none.mp hnone row hrow)
    · cases hd.symm.trans h
  · intro h
    have hnone := rowOf_eq_none fun i hi => h (hi.subst (opcode_mem_opcodeTable i))
    exact decode_unknown hnone (operandsFetched_le_two ir)

/-- Among the 256 byte values those in the map are its nineteen rows' bytes: two lists without duplicates that hold the
same numbers. -/
theorem filter_mem_opcodeTable_perm :
    ((List.range 256).filter fun k => BitVec.ofNat 8 k ∈ opcodeTable.map (·.opcode)).Perm
      ((opcodeTable.map (·.opcode)).map BitVec.toNat) := by
  have hnodup : ((opcodeTable.map (·.opcode)).map BitVec.toNat).Nodup :=
    opcodeTable_opcodes_nodup.map fun _ _ => BitVec.eq_of_toNat_eq
  refine (List.perm_ext_iff_of_nodup (List.nodup_range.filter _) hnodup).mpr fun k => ?_
  rw [List.mem_filter, List.mem_range, decide_eq_true_eq, List.mem_map (f := BitVec.toNat)]
  constructor
  · rintro ⟨hk, hmem⟩
    exact ⟨_, hmem, (BitVec.toNat_ofNat k 8).trans (Nat.mod_eq_of_lt hk)⟩
  · rintro ⟨ir, hmem, rfl⟩
    exact ⟨ir.isLt, by rwa [BitVec.ofNat_toNat, BitVec.setWidth_eq]⟩

/-- Settles O12: a byte that is no instruction's has no row (`rowOf_eq_none`); of the 256 values
those that are known (`decode_eq_unknown_iff`) are nineteen (`filter_mem_opcodeTable_perm`). -/
theorem otherOpcodeBytesAreUnknownNotIllegal : Obligations.OtherOpcodeBytesAreUnknownNotIllegal := by
  refine ⟨fun ir operands hir hlen => ?unknown, ?count⟩
  case unknown => exact decode_unknown (rowOf_eq_none hir) (operandsFetched_eq ir ▸ hlen)
  case count =>
    have hsplit := List.length_eq_length_filter_add (l := List.range 256)
      fun k => decide (BitVec.ofNat 8 k ∈ opcodeTable.map (·.opcode))
    have hknown : _ = 19 := filter_mem_opcodeTable_perm.length_eq
    rw [List.length_range, hknown] at hsplit
    simp only [decode_eq_unknown_iff, decide_not]
    omega

end Sys2Proof.Proofs
end

