-- ==== Sys2Proof/Proofs/Cycle.lean ====
section
/-! PROOFS. What the bytes at `pc` make of a step: the instruction they encode (spec/40_engine.md R93), the no-operation of
an unknown opcode (45_system.md R167, R168), the halt past memory (60_exceptions.md R178); and that a running machine always
steps (40_engine.md R90). -/

namespace Sys2Proof.Proofs

open Sys2Proof Sys2Proof.Machine

variable {s : State} {i : Instr}

/-! ### The instruction whose bytes stand at `pc` -/

theorem opcodeAtPc_of_bytesAtPc (h : s.BytesAtPc (encode i)) : s.OpcodeAtPc i.opcode :=
  h 0 (Nat.zero_lt_succ _)

theorem operands_fit_of_bytesAtPc (h : s.BytesAtPc (encode i)) : s.pc.toNat + i.operands.length ≤ 255 :=
  (h i.operands.length (Nat.lt_succ_self _)).1

/-- The fetch reads as many operand bytes as the instruction has, and reads them where they stand. -/
theorem fetch_of_bytesAtPc (h : s.BytesAtPc (encode i)) : fetch s = encode i := by
  obtain ⟨hpc, hir⟩ := opcodeAtPc_of_bytesAtPc h
  obtain ⟨operands, hfetch, hin, -⟩ := fetch_in_memory (Nat.lt_succ_of_le hpc) hir
  have hoperands := hin (operandsFetched_opcode i ▸ Nat.lt_succ_of_le (operands_fit_of_bytesAtPc h))
  rw [operandsFetched_opcode] at hoperands
  have hread : operands = i.operands := by
    refine List.ext_getElem (by simp [hoperands]) fun k _ hk => ?_
    have hbyte : s.mem.read (s.pc.toNat + (k + 1)) = i.operands[k] := (h (k + 1) (Nat.succ_lt_succ hk)).2
    simpa [hoperands, Nat.add_comm 1 k, Nat.add_assoc] using hbyte
  rw [hfetch, hread, encode]

theorem step_of_bytesAtPc (hrun : s.run = .running) (h : s.BytesAtPc (encode i)) : step s = exec i s := by
  rw [step_of_running hrun]
  simp only [cycle, fetch_of_bytesAtPc h, decode_encode]

/-- Settles O13: the fetch of a running machine is the instruction's encoding (`fetch_of_bytesAtPc`), which decodes to it. -/
theorem stepRunsTheDecodedInstruction : Obligations.StepRunsTheDecodedInstruction :=
  fun _ _ => step_of_bytesAtPc

/-! ### An unknown opcode and the end of memory -/

/-- Of the ways a cycle can go, an opcode byte outside the map with its operands in memory leaves only the no-operation. -/
theorem step_of_unknown {ir : Byte} (hrun : s.run = .running) (hop : s.OpcodeAtPc ir) (hrow : rowOf ir = none)
    (hfit : s.pc.toNat + operandsFetched ir ≤ 255) : step s = .next (s.advance (operandCount ir)) := by
  obtain ⟨hpc, rfl⟩ := hop
  rw [step_of_running hrun]
  rcases cycle_cases s with ⟨hge, -⟩ | ⟨_, -, rfl, ⟨hge, -⟩ | ⟨-, -, hnop⟩ | ⟨-, row, _, hsome, -⟩⟩
  · rw [memSize_eq] at hge; omega
  · rw [memSize_eq] at hge; omega
  · exact hnop
  · cases hrow.symm.trans hsome

/-- Settles O14: an opcode byte that is no instruction's has no row (`rowOf_eq_none`), so the step is `step_of_unknown`'s,
or the fault of every opcode byte whose operands are not in memory. -/
theorem unknownOpcodeOnlyAdvances : Obligations.UnknownOpcodeOnlyAdvances := by
  refine fun s ir hrun hop hunknown => ⟨fun hfit => ?advance, fun hpast => ?fault⟩
  case advance =>
    rw [← operandsFetched_eq] at hfit
    refine ⟨_, step_of_unknown hrun hop (rowOf_eq_none hunknown) hfit, rfl, ?_⟩
    rw [advance_pc_toNat hop.1 (operandCount_le_three ir), operandCount_eq]
  case fault =>
    rw [← operandsFetched_eq] at hpast
    exact operandFetchFaultsFrom hpast s hrun hop le_rfl

theorem step_past_memory (hrun : s.run = .running) (hpc : 256 ≤ s.pc.toNat) :
    step s = .next { s with run := .halted .pcPastEnd } :=
  (step_of_running hrun).trans (cycle_past hpc)

/-! ### A running machine always steps -/

theorem exists_next_withReg (s : State) (a : Byte) {k : RegIx → Result} (h : ∀ r, ∃ t, k r = .next t) :
    ∃ t, s.withReg a k = .next t := by
  rcases s.withReg_cases a k with ⟨r, -, hk⟩ | ⟨-, hfault⟩
  · exact hk ▸ h r
  · exact ⟨_, hfault⟩

theorem exists_next_withRegs (s : State) (a b : Byte) {k : RegIx → RegIx → Result} (h : ∀ r q, ∃ t, k r q = .next t) :
    ∃ t, s.withRegs a b k = .next t := by
  rcases s.withRegs_cases a b k with ⟨r, q, -, -, hk⟩ | ⟨-, hfault⟩
  · exact hk ▸ h r q
  · exact ⟨_, hfault⟩

/-- No instruction is without a meaning, in any state. -/
theorem exists_next_exec (i : Instr) (s : State) : ∃ t, exec i s = .next t := by
  cases i with
  | hlt => exact ⟨_, execHlt_eq s⟩
  | prn | jmp | jeq | jne | inc | dec | ldi => exact exists_next_withReg s _ fun _ => ⟨_, rfl⟩
  | ld | add | mul | cmp | and => exact exists_next_withRegs s _ _ fun _ _ => ⟨_, rfl⟩
  | ret => simp only [exec, execRet]; split <;> exact ⟨_, rfl⟩
  | push | pop => refine exists_next_withReg s _ fun _ => ?_; split <;> exact ⟨_, rfl⟩
  | div | mod => refine exists_next_withRegs s _ _ fun _ _ => ?_; split <;> exact ⟨_, rfl⟩
  | call =>
    refine exists_next_withReg s _ fun _ => ?_
    split
    · exact ⟨_, rfl⟩
    · split <;> exact ⟨_, rfl⟩

/-- Settles O4: a cycle is a halt, a fault, a no-operation or an instruction, and each of these has a next state. -/
theorem runningStatesAlwaysStep : Obligations.RunningStatesAlwaysStep := by
  intro s hrun
  rw [step_of_running hrun]
  rcases cycle_cases s with ⟨-, hc⟩ | ⟨_, -, -, ⟨-, hc⟩ | ⟨-, -, hc⟩ | ⟨-, _, i, -, -, hc⟩⟩
  · exact ⟨_, hc⟩
  · exact ⟨_, hc⟩
  · exact ⟨_, hc⟩
  · exact hc ▸ exists_next_exec i s

end Sys2Proof.Proofs
end

