-- ==== Sys2Proof/Proofs/Frames.lean ====
section
/-! PROOFS. What an instruction leaves unchanged (spec/10_state.md R22, R36, R37, R44; 20_memory.md R52), said once for all
nineteen; then the frames of a step and the invariant. -/

namespace Sys2Proof.Proofs

open Sys2Proof Sys2Proof.Machine

variable {i : Instr} {s t u : State}

/-! ### The effect of an instruction -/

/-- Memory is as before, or one byte was written below a stack pointer that is not 0, by a PUSH or CALL that completed. -/
def StoresAtMostOne (i : Instr) (s t : State) : Prop :=
  t.mem = s.mem ∨ t.run = s.run ∧ s.getReg 7 ≠ 0#8 ∧ (∃ v, t.mem = s.mem.write s.pushAddr.toNat v) ∧
    ∃ r, i = .push (regByte r) ∨ i = .call (regByte r)

/-- FL is as before, or CMP wrote its equal flag. -/
def WritesAtMostEqual (i : Instr) (s t : State) : Prop :=
  t.fl = s.fl ∨ ∃ r q, i = .cmp (regByte r) (regByte q) ∧ t.fl = withEqualBit s.fl (s.getReg r == s.getReg q)

/-- What instruction `i`, executed in `s` with its register operands in range, has done in `t`, whether it completed or
ended the run. -/
structure Effect (i : Instr) (s t : State) : Prop where
  regs : SameRegsBut s t (regsWritten i)
  mem : StoresAtMostOne i s t
  fl : WritesAtMostEqual i s t
  out : t.out = s.out ++ emitted s i

theorem Effect.of_next (h : (.next u : Result) = .next t) (hu : Effect i s u) : Effect i s t := by
  cases h
  exact hu

theorem Effect.of_ending {ending : RunState} (hemit : emitted s i = []) : Effect i s { s with run := ending } where
  regs _ _ := rfl
  mem := .inl rfl
  fl := .inl rfl
  out := by rw [hemit, List.append_nil]

/-- An instruction that ends the run on a condition and completes otherwise, and does not emit. -/
theorem Effect.of_ite {c : Prop} [Decidable c] {ending : RunState}
    (h : (if c then .next { s with run := ending } else .next u : Result) = .next t) (hemit : emitted s i = [])
    (hu : ¬ c → Effect i s u) : Effect i s t := by
  split at h
  · cases h; exact .of_ending hemit
  · next hc => exact .of_next h (hu hc)

/-- An instruction that writes registers and `pc` alone. -/
theorem Effect.of_regs (hregs : SameRegsBut s u (regsWritten i)) (hmem : u.mem = s.mem) (hfl : u.fl = s.fl)
    (hout : u.out = s.out) (hemit : emitted s i = []) : Effect i s u where
  regs := hregs
  mem := .inl hmem
  fl := .inl hfl
  out := by rw [hout, hemit, List.append_nil]

/-- The list `regsWritten` gives for every instruction that writes the register of its first operand alone. -/
theorem regsWritten_destination (r : RegIx) : [operandReg (regByte r)] = [r] := by
  rw [operandReg_regByte]

theorem Effect.of_setReg_advance {r : RegIx} {v : Byte} {n : Nat} (hregs : regsWritten i = [r])
    (hemit : emitted s i = []) : Effect i s ((s.setReg r v).advance n) :=
  .of_regs (hregs ▸ sameRegsBut_setReg s r v) rfl rfl rfl hemit

theorem Effect.mul (s : State) (r q : RegIx) :
    Effect (.mul (regByte r) (regByte q)) s
      (((s.setReg r (s.getReg r * s.getReg q)).emit (s.getReg r * s.getReg q)).advance 2) where
  regs := by
    simp only [regsWritten, operandReg_regByte]
    exact sameRegsBut_setReg s r _
  mem := .inl rfl
  fl := .inl rfl
  out := by simp only [emitted, operandReg_regByte, State.advance_out, State.emit_out, State.setReg_out]

theorem Effect.prn (s : State) (r : RegIx) : Effect (.prn (regByte r)) s ((s.emit (s.getReg r)).advance 1) where
  regs _ _ := rfl
  mem := .inl rfl
  fl := .inl rfl
  out := by simp only [emitted, operandReg_regByte, State.advance_out, State.emit_out]

theorem Effect.cmp (s : State) (r q : RegIx) :
    Effect (.cmp (regByte r) (regByte q)) s ((s.setEqual (s.getReg r == s.getReg q)).advance 2) where
  regs _ _ := rfl
  mem := .inl rfl
  fl := .inr ⟨r, q, rfl, rfl⟩
  out := (List.append_nil _).symm

/-- A push of `v`, whichever instruction pushes and wherever it goes next. -/
theorem Effect.of_push {v : Byte} (hsp : s.getReg 7 ≠ 0#8) (hi : ∃ r, i = .push (regByte r) ∨ i = .call (regByte r))
    (hregs : SameRegsBut s u [7]) (hmem : u.mem = s.mem.write s.pushAddr.toNat v) (hfl : u.fl = s.fl)
    (hout : u.out = s.out) (hrun : u.run = s.run) : Effect i s u where
  regs := by obtain ⟨r, rfl | rfl⟩ := hi <;> exact hregs
  mem := .inr ⟨hrun, hsp, ⟨v, hmem⟩, hi⟩
  fl := .inl hfl
  out := by obtain ⟨r, rfl | rfl⟩ := hi <;> exact hout.trans (List.append_nil _).symm

theorem effect_call {r : RegIx} (h : exec (.call (regByte r)) s = .next t) : Effect (.call (regByte r)) s t := by
  have h := (execCall_eq s r).symm.trans h
  split at h
  · cases h; exact .of_ending rfl
  · exact .of_ite h rfl fun hsp => .of_push hsp ⟨r, .inr rfl⟩ (sameRegsBut_setReg s 7 _) rfl rfl rfl rfl

theorem effect_pop {r : RegIx} (h : exec (.pop (regByte r)) s = .next t) : Effect (.pop (regByte r)) s t := by
  have hregs : regsWritten (.pop (regByte r)) = [r, 7] := by simp only [regsWritten, operandReg_regByte]
  exact .of_ite ((execPop_eq s r).symm.trans h) rfl fun _ =>
    .of_regs (hregs ▸ sameRegsBut_setReg_setReg s r 7 _ _) rfl rfl rfl rfl

/-- A conditional branch writes `pc` alone, either way. -/
theorem Effect.of_branch {c : Prop} [Decidable c] {x y : PcWord} (hemit : emitted s i = []) :
    Effect i s (if c then { s with pc := x } else { s with pc := y }) := by
  split <;> exact .of_regs (fun _ _ => rfl) rfl rfl rfl hemit

/-- Each line cites the instruction's equation, then says what kind of effect it has. -/
theorem exec_effect (hwf : i.wellFormed = true) (h : exec i s = .next t) : Effect i s t := by
  rcases exec_cases h with ⟨hbad, -⟩ | ⟨-, rfl | rfl |
    ⟨r, rfl | rfl | rfl | rfl | rfl | rfl | rfl | rfl | rfl | ⟨b, rfl⟩⟩ |
    ⟨r, q, rfl | rfl | rfl | rfl | rfl | rfl | rfl⟩⟩
  case inl => cases hwf.symm.trans hbad
  · exact .of_next ((execHlt_eq s).symm.trans h) (.of_ending rfl)
  · exact .of_ite ((execRet_eq s).symm.trans h) rfl fun _ => .of_regs (sameRegsBut_setReg s 7 _) rfl rfl rfl rfl
  · exact .of_ite ((execPush_eq s r).symm.trans h) rfl fun hsp =>
      .of_push hsp ⟨r, .inl rfl⟩ (sameRegsBut_setReg s 7 _) rfl rfl rfl rfl
  · exact effect_pop h
  · exact .of_next ((execPrn_eq s r).symm.trans h) (.prn s r)
  · exact effect_call h
  · exact .of_next ((execJmp_eq s r).symm.trans h) (.of_regs (fun _ _ => rfl) rfl rfl rfl rfl)
  · exact .of_next ((execJeq_eq s r).symm.trans h) (.of_branch rfl)
  · exact .of_next ((execJne_eq s r).symm.trans h) (.of_branch rfl)
  · exact .of_next ((execInc_eq s r).symm.trans h) (.of_setReg_advance (regsWritten_destination r) rfl)
  · exact .of_next ((execDec_eq s r).symm.trans h) (.of_setReg_advance (regsWritten_destination r) rfl)
  · exact .of_next ((execLdi_eq s r b).symm.trans h) (.of_setReg_advance (regsWritten_destination r) rfl)
  · exact .of_next ((execLd_eq s r q).symm.trans h) (.of_setReg_advance (regsWritten_destination r) rfl)
  · exact .of_next ((execAdd_eq s r q).symm.trans h) (.of_setReg_advance (regsWritten_destination r) rfl)
  · exact .of_next ((execMul_eq s r q).symm.trans h) (.mul s r q)
  · exact .of_ite ((execDiv_eq s r q).symm.trans h) rfl fun _ => .of_setReg_advance (regsWritten_destination r) rfl
  · exact .of_ite ((execMod_eq s r q).symm.trans h) rfl fun _ => .of_setReg_advance (regsWritten_destination r) rfl
  · exact .of_next ((execCmp_eq s r q).symm.trans h) (.cmp s r q)
  · exact .of_next ((execAnd_eq s r q).symm.trans h) (.of_setReg_advance (regsWritten_destination r) rfl)

/-! ### The three ways a step can go -/

theorem exec_of_not_wellFormed (hwf : i.wellFormed = false) (h : exec i s = .next t) :
    t = { s with run := .faulted .registerIndexOutOfRange } := by
  cases (exec_of_wellFormed_eq_false s hwf).symm.trans h
  rfl

/-- A step ends the run and changes nothing else, or is the no-operation of an unknown opcode with its operands in memory,
or completes the instruction whose bytes stand at `pc`. -/
theorem step_ends_or_advances_or_completes (h : step s = .next t) :
    EndsRunOnly s t ∨
    (∃ ir, s.pc.toNat + operandsFetched ir ≤ 255 ∧ t = s.advance (operandCount ir)) ∨
    ∃ i, s.BytesAtPc (encode i) ∧ Completes i s t ∧ Effect i s t := by
  obtain ⟨-, ⟨-, rfl⟩ | ⟨-, -, rfl⟩ | ⟨-, hfit, -, rfl⟩ | ⟨i, hbytes, hexec⟩⟩ := step_cases h
  · exact .inl (.with_run nofun)
  · exact .inl (.with_run nofun)
  · exact .inr (.inl ⟨_, Nat.le_of_lt_succ hfit, rfl⟩)
  · cases hwf : i.wellFormed with
    | false =>
      obtain rfl := exec_of_not_wellFormed hwf hexec
      exact .inl (.with_run nofun)
    | true =>
      rcases exec_endsRunOnly_or_completes hexec with hends | hcompletes
      · exact .inl hends
      · exact .inr (.inr ⟨i, hbytes, hcompletes, exec_effect hwf hexec⟩)

/-- Settles O18: of the ways a step can go, only `EndsRunOnly` leaves the run ended. -/
theorem endingStepsChangeOnlyTheRunState : Obligations.EndingStepsChangeOnlyTheRunState := by
  intro s t hstep hended
  have hrun := running_of_step hstep
  rcases step_ends_or_advances_or_completes hstep with ⟨_, -, rfl⟩ | ⟨_, -, rfl⟩ | ⟨_, -, ⟨hsame, -⟩, -⟩
  · rfl
  · exact absurd hrun hended
  · exact absurd (hsame.trans hrun) hended

/-! ### The invariant -/

theorem EndsRunOnly.inv (h : EndsRunOnly s t) (hs : s.Inv) : t.Inv := by
  obtain ⟨_, -, rfl⟩ := h
  exact ⟨hs.memCanonical, hs.pcInRange, hs.unusedFlagsZero⟩

theorem StoresAtMostOne.wf (h : StoresAtMostOne i s t) (hs : s.mem.wf) : t.mem.wf := by
  rcases h with hmem | ⟨-, -, ⟨v, hmem⟩, -⟩
  · exact hmem ▸ hs
  · exact hmem ▸ Memory.wf_write hs s.pushAddr.isLt v

theorem WritesAtMostEqual.other_bits (h : WritesAtMostEqual i s t) {k : Nat} (hk : k ≠ Config.equalBit) :
    t.fl.getLsbD k = s.fl.getLsbD k := by
  rcases h with hfl | ⟨r, q, -, hfl⟩
  · rw [hfl]
  · rw [hfl, withEqualBit_other s.fl _ hk]

/-- An explicit target is a byte; the default advance is by the instruction's length (40_engine.md R95). -/
theorem nextPc_le_or_eq (s : State) (i : Instr) :
    nextPc s i ≤ 255 ∨ nextPc s i = s.pc.toNat + i.operands.length + 1 := by
  have hbyte : ∀ b : Byte, b.toNat ≤ 255 := fun b => Nat.le_of_lt_succ b.isLt
  cases i with
  | call | ret | jmp => exact .inl (hbyte _)
  | jeq =>
    simp only [nextPc]
    split
    · exact .inl (hbyte _)
    · exact .inr rfl
  | jne =>
    simp only [nextPc]
    split
    · exact .inr rfl
    · exact .inl (hbyte _)
  | push | pop | prn | inc | dec | ldi | ld | add | mul | div | mod | cmp | and | hlt =>
    exact .inr (by simp only [nextPc, ← operandCount_eq, operandCount_opcode])

/-- From an address of memory that holds the whole instruction the default advance reaches 256 at most (40_engine.md R97). -/
theorem Completes.pc_le (h : Completes i s t) (hbytes : s.BytesAtPc (encode i)) : t.pc.toNat ≤ 256 := by
  have hfit := operands_fit_of_bytesAtPc hbytes
  obtain ⟨-, hpc⟩ := h
  rw [hpc (by omega)]
  rcases nextPc_le_or_eq s i with hle | heq <;> omega

/-- At most one byte of the count is not fetched, so the no-operation reaches 257 at most (45_system.md R168). -/
theorem advance_unknown_pc_le {ir : Byte} (h : s.pc.toNat + operandsFetched ir ≤ 255) :
    (s.advance (operandCount ir)).pc.toNat ≤ 257 := by
  have hcount := operandCount_le_three ir
  rw [advance_pc_toNat (by omega) hcount]
  unfold operandsFetched at h
  omega

/-- Settles O7: an ended run keeps all that the invariant speaks of; an unknown opcode moves `pc` alone
(`advance_unknown_pc_le`); an instruction that completes stores below the stack pointer at most
(`StoresAtMostOne.wf`), stays in reach (`Completes.pc_le`) and writes no unused flag (`WritesAtMostEqual.other_bits`). -/
theorem stepKeepsTheInvariant : Obligations.StepKeepsTheInvariant := by
  intro s t hs hstep
  rcases step_ends_or_advances_or_completes hstep with hends | ⟨_, hfit, rfl⟩ | ⟨_, hbytes, hcompletes, heffect⟩
  · exact hends.inv hs
  · exact ⟨hs.memCanonical, advance_unknown_pc_le hfit, hs.unusedFlagsZero⟩
  · exact ⟨heffect.mem.wf hs.memCanonical, Nat.le_succ_of_le (hcompletes.pc_le hbytes),
      fun k hk hne => (heffect.fl.other_bits hne).trans (hs.unusedFlagsZero k hk hne)⟩

/-- Settles O6: at reset memory lists nothing, `pc` and FL are 0; the loader writes memory alone and keeps its form. -/
theorem launchStatesMeetTheInvariant : Obligations.LaunchStatesMeetTheInvariant := by
  have hreset : State.reset.Inv := ⟨reset_mem_wf, Nat.zero_le _, by decide⟩
  refine ⟨hreset, fun image t hload => ?_⟩
  have hmem := loadImage_wf reset_mem_wf hload
  obtain ⟨-, rfl⟩ := loadImage_next_eq hload
  exact ⟨hmem, hreset.pcInRange, hreset.unusedFlagsZero⟩

/-! ### Registers, flags, memory and output -/

/-- Settles O21: an instruction with a register operand out of range writes RUN alone, any other is `exec_effect`'s, and an
unknown opcode writes `pc` alone. -/
theorem onlyDestinationRegistersChange : Obligations.OnlyDestinationRegistersChange := by
  refine ⟨fun i s t h => ?instruction, fun ir s t h => ?unknown⟩
  case instruction =>
    cases hwf : i.wellFormed with
    | false => obtain rfl := exec_of_not_wellFormed hwf h; exact fun _ _ => rfl
    | true => exact (exec_effect hwf h).regs
  case unknown => cases (execUnknown_eq s ir).symm.trans h; exact fun _ _ => rfl

/-- Settles O22: of the ways a step can go, only an instruction that completes may write FL, and then it is CMP and writes
its equal flag (`WritesAtMostEqual`). -/
theorem onlyCmpChangesTheFlagRegister : Obligations.OnlyCmpChangesTheFlagRegister := by
  intro s t hstep
  rcases step_ends_or_advances_or_completes hstep with ⟨_, -, rfl⟩ | ⟨_, -, rfl⟩ | ⟨i, hbytes, -, heffect⟩
  · exact ⟨.inl rfl, fun _ _ _ => rfl⟩
  · exact ⟨.inl rfl, fun _ _ _ => rfl⟩
  · refine ⟨heffect.fl.imp_right ?_, fun k hk _ => heffect.fl.other_bits (Nat.ne_of_gt hk)⟩
    rintro ⟨r, q, rfl, hfl⟩
    exact ⟨r, q, hbytes, (congrArg (·.getLsbD Config.equalBit) hfl).trans (equalFlag_setEqual s _)⟩

/-- Settles O24: of the ways a step can go, only an instruction that completes may write memory, and then it is PUSH or CALL
and writes one byte (`StoresAtMostOne`). -/
theorem onlyPushAndCallWriteMemory : Obligations.OnlyPushAndCallWriteMemory := by
  intro s t hstep
  rcases step_ends_or_advances_or_completes hstep with ⟨_, -, rfl⟩ | ⟨_, -, rfl⟩ | ⟨i, hbytes, -, heffect⟩
  · exact .inl fun _ => rfl
  · exact .inl fun _ => rfl
  · rcases heffect.mem with hmem | ⟨hrun, hsp, ⟨v, hmem⟩, r, hi⟩
    · exact .inl fun _ => by rw [hmem]
    · refine .inr ⟨hrun.trans (running_of_step hstep), fun a hne => ?_, State.pushAddr_toNat hsp, r, ?_⟩
      · rw [hmem, Memory.read_write_of_ne s.mem v hne]
      · rcases hi with rfl | rfl
        · exact .inl hbytes
        · exact .inr hbytes

end Sys2Proof.Proofs
end

