-- ==== Sys2Proof/Proofs/Noninterference.lean ====
section
/-! PROOFS. FL is read by the branches alone (spec/10_state.md R36), and OUT by nothing (R44): an instruction does the same in
a state whose FL, or whose earlier output, is another one. -/

namespace Sys2Proof.Proofs

open Sys2Proof Sys2Proof.Machine

variable {i : Instr} {s t : State}

/-- A result with its next state changed. -/
def onNext (change : State → State) : Result → Result
  | .next s => .next (change s)
  | .fault r => .fault r
  | .refused r => .refused r

theorem onNext_next (change : State → State) (s : State) : onNext change (.next s) = .next (change s) := rfl

theorem onNext_ite (change : State → State) (c : Prop) [Decidable c] (x y : Result) :
    onNext change (if c then x else y) = if c then onNext change x else onNext change y :=
  apply_ite ..

/-- The second write of the equal flag is the one that stays. -/
theorem setEqual_setEqual (s : State) (e d : Bool) : (s.setEqual e).setEqual d = s.setEqual d := by
  have hfl : withEqualBit (withEqualBit s.fl e) d = withEqualBit s.fl d := by
    refine BitVec.eq_of_getLsbD_eq fun k _ => ?_
    by_cases hk : k = Config.equalBit
    · rw [hk]
      exact (equalFlag_setEqual (s.setEqual e) d).trans (equalFlag_setEqual s d).symm
    · simp only [withEqualBit_other _ _ hk]
  exact congrArg (fun fl => { s with fl := fl }) hfl

/-! ### Changes of state that an instruction does not see -/

/-- A change of state that no operation on registers, `pc`, memory, output and RUN sees: they read the same after it as
before, and writing them and changing the state commute. -/
structure Unseen (change : State → State) : Prop where
  getReg : ∀ s r, (change s).getReg r = s.getReg r
  pc : ∀ s, (change s).pc = s.pc
  mem : ∀ s, (change s).mem = s.mem
  setReg : ∀ s r v, (change s).setReg r v = change (s.setReg r v)
  store : ∀ s a v, (change s).store a v = change (s.store a v)
  advance : ∀ s n, (change s).advance n = change (s.advance n)
  jump : ∀ s v, (change s).jump v = change (s.jump v)
  emit : ∀ s v, (change s).emit v = change (s.emit v)
  ending : ∀ s e, { change s with run := e } = change { s with run := e }

theorem unseen_fl (f : Byte) : Unseen fun s => { s with fl := f } :=
  ⟨fun _ _ => rfl, fun _ => rfl, fun _ => rfl, fun _ _ _ => rfl, fun _ _ _ => rfl, fun _ _ => rfl, fun _ _ => rfl,
    fun _ _ => rfl, fun _ _ => rfl⟩

/-- Appending behind and putting more in front commute; nothing else touches OUT. -/
theorem unseen_out (o : List Byte) : Unseen fun s => { s with out := o ++ s.out } :=
  ⟨fun _ _ => rfl, fun _ => rfl, fun _ => rfl, fun _ _ _ => rfl, fun _ _ _ => rfl, fun _ _ => rfl, fun _ _ => rfl,
    fun s v => congrArg (fun out => { s with out := out }) (List.append_assoc o s.out [v]), fun _ _ => rfl⟩

/-- The instructions that read or write FL (10_state.md R36). -/
def usesEqualFlag : Instr → Bool
  | .jeq _ | .jne _ | .cmp _ _ => true
  | _ => false

theorem eq_of_usesEqualFlag (h : usesEqualFlag i = true) :
    (∃ a, i = .jeq a) ∨ (∃ a, i = .jne a) ∨ ∃ a b, i = .cmp a b := by
  cases i with
  | jeq a => exact .inl ⟨a, rfl⟩
  | jne a => exact .inr (.inl ⟨a, rfl⟩)
  | cmp a b => exact .inr (.inr ⟨a, b, rfl⟩)
  | _ => cases h

/-- The equal flag does not see a change of state either. -/
structure EqualFlagUnseen (change : State → State) : Prop where
  equalFlag : ∀ s, (change s).equalFlag = s.equalFlag
  setEqual : ∀ s e, (change s).setEqual e = change (s.setEqual e)

theorem equalFlagUnseen_out (o : List Byte) : EqualFlagUnseen fun s => { s with out := o ++ s.out } :=
  ⟨fun _ => rfl, fun _ _ => rfl⟩

section

variable {change : State → State} (hc : Unseen change)
include hc

theorem Unseen.pushAddr (s : State) : (change s).pushAddr = s.pushAddr := by
  rw [State.pushAddr_eq, State.pushAddr_eq, hc.getReg]

theorem Unseen.pc_toNat (s : State) : (change s).pc.toNat = s.pc.toNat :=
  congrArg BitVec.toNat (hc.pc s)

theorem Unseen.load (s : State) (a : Byte) : (change s).load a = s.load a :=
  congrArg (·.read a.toNat) (hc.mem s)

/-- Each instruction is made of operations that `change` commutes with, and so commutes with it; of the equal flag this
is asked of the three that use it. -/
theorem exec_unseen (hflag : usesEqualFlag i = true → EqualFlagUnseen change) (h : exec i s = .next t) :
    exec i (change s) = .next (change t) := by
  suffices hcomm : exec i (change s) = onNext change (exec i s) by rw [hcomm, h, onNext_next]
  rcases exec_cases h with ⟨hwf, -⟩ | ⟨-, rfl | rfl |
    ⟨r, rfl | rfl | rfl | rfl | rfl | rfl | rfl | rfl | rfl | ⟨b, rfl⟩⟩ |
    ⟨r, q, rfl | rfl | rfl | rfl | rfl | rfl | rfl⟩⟩
  case inl => simp only [exec_of_wellFormed_eq_false _ hwf, onNext_next, hc.ending]
  case inr.inr.inr.inl.inr.inr.inr.inr.inr.inl =>
    simp only [exec, execJeq_eq, (hflag rfl).equalFlag, hc.getReg, hc.advance, hc.jump, onNext_next, apply_ite change]
  case inr.inr.inr.inl.inr.inr.inr.inr.inr.inr.inl =>
    simp only [exec, execJne_eq, (hflag rfl).equalFlag, hc.getReg, hc.advance, hc.jump, onNext_next, apply_ite change]
  case inr.inr.inr.inr.inr.inr.inr.inr.inr.inl =>
    simp only [exec, execCmp_eq, (hflag rfl).setEqual, hc.getReg, hc.advance, onNext_next]
  all_goals
    simp only [exec, execHlt_eq, execRet_eq, execPush_eq, execPop_eq, execPrn_eq, execCall_eq, execJmp_eq, execInc_eq,
      execDec_eq, execLdi_eq, execLd_eq, execAdd_eq, execMul_eq, execDiv_eq, execMod_eq, execAnd_eq, hc.getReg,
      hc.pc_toNat, hc.load, hc.pushAddr, hc.setReg, hc.store, hc.advance, hc.jump, hc.emit, hc.ending, onNext_next,
      onNext_ite]

end

/-- Settles O23: writing FL is unseen (`unseen_fl`); CMP overwrites the equal flag and reads nothing of FL. -/
theorem onlyBranchesDependOnTheEqualFlag : Obligations.OnlyBranchesDependOnTheEqualFlag := by
  refine ⟨fun i s t f hjeq hjne hcmp h => exec_unseen (unseen_fl f) (fun huses => ?excluded) h, fun ra rb s e => ?cmp⟩
  case excluded =>
    rcases eq_of_usesEqualFlag huses with ⟨a, rfl⟩ | ⟨a, rfl⟩ | ⟨a, b, rfl⟩
    · exact absurd rfl (hjeq a)
    · exact absurd rfl (hjne a)
    · exact absurd rfl (hcmp a b)
  case cmp =>
    have hcmp := fun s => execCmp_eq s ra rb
    simp only [exec, hcmp, State.getReg_setEqual, setEqual_setEqual]

/-! ### The output -/

/-- Settles O25: `exec_effect` says what is appended, and more output in front is unseen (`unseen_out`), by the branches and
CMP too. -/
theorem onlyPrnAndMulAppendToTheOutput : Obligations.OnlyPrnAndMulAppendToTheOutput := by
  refine ⟨rfl, fun i s t hwf h => (exec_effect hwf h).out, fun i s t hwf h => ?illFormed, fun i s t o h => ?unread,
    fun ir s t h => ?unknown⟩
  case illFormed => rw [exec_of_not_wellFormed (Bool.not_eq_true _ ▸ hwf) h]
  case unread => exact exec_unseen (unseen_out o) (fun _ => equalFlagUnseen_out o) h
  case unknown => cases (execUnknown_eq s ir).symm.trans h; rfl

end Sys2Proof.Proofs
end

