-- ==== Sys2Proof/Proofs/Priority.lean ====
section
/-! PROOFS. RUN after a step (spec/60_exceptions.md R176 to R187): its codes, which condition raises which ending, and the
order of the conditions. -/

namespace Sys2Proof.Proofs

open Sys2Proof Sys2Proof.Machine

variable {i : Instr} {s t u : State}

/-! ### Codes -/

/-- The run state of a code; a number that is no code stands for Running. -/
def runOfCode : Nat → RunState
  | 1 => .halted .hlt
  | 2 => .halted .divideByZero
  | 3 => .halted .pcPastEnd
  | 16 => .faulted .operandFetchOutOfRange
  | 17 => .faulted .registerIndexOutOfRange
  | 18 => .faulted .moduloByZero
  | 19 => .faulted .stackPointerOutOfRange
  | 20 => .faulted .returnAddressOutOfRange
  | _ => .running

theorem runOfCode_code (p : RunState) : runOfCode p.code = p := by
  cases p with
  | running => rfl
  | halted cause => cases cause <;> rfl
  | faulted reason => cases reason <;> rfl

/-- Settles O5: the codes read off the table, and `runOfCode` takes each back. -/
theorem runStateCodesAreTheTable : Obligations.RunStateCodesAreTheTable :=
  ⟨⟨rfl, rfl, rfl, rfl, rfl, rfl, rfl, rfl, rfl⟩, Function.LeftInverse.injective runOfCode_code⟩

/-! ### RUN after an executed instruction -/

/-- The register check comes first, the instruction's own condition second. -/
theorem exec_run_eq (hrun : s.run = .running) (h : exec i s = .next t) :
    t.run = if i.wellFormed then ownRun s i else .faulted .registerIndexOutOfRange := by
  cases hwf : i.wellFormed with
  | false => rw [exec_of_not_wellFormed hwf h]; rfl
  | true => exact exec_run_eq_ownRun hrun hwf h

/-- Not one of the endings that the engine raises before an instruction's own condition is asked. -/
def OwnEnding : RunState → Prop
  | .halted .pcPastEnd | .faulted .operandFetchOutOfRange | .faulted .registerIndexOutOfRange => False
  | _ => True

theorem ownEnding_endsIf {c : Bool} {e : RunState} (he : OwnEnding e) : OwnEnding (endsIf c e) := by
  cases c
  · exact trivial
  · exact he

theorem ownEnding_ownRun (s : State) (i : Instr) : OwnEnding (ownRun s i) := by
  cases i with
  | div | mod | push | pop | ret => exact ownEnding_endsIf trivial
  | call =>
    simp only [ownRun, callRun]
    split
    · exact trivial
    · exact ownEnding_endsIf trivial
  | hlt | prn | jmp | jeq | jne | inc | dec | ldi | ld | add | mul | cmp | and => exact trivial

theorem ownRun_ne {e : RunState} (he : ¬ OwnEnding e) : ownRun s i ≠ e :=
  fun h => he (h ▸ ownEnding_ownRun s i)

/-- Of the engine's endings an executed instruction raises the register fault alone. -/
theorem exec_run_ne {e : RunState} (he : ¬ OwnEnding e) (hreg : e ≠ .faulted .registerIndexOutOfRange)
    (hrun : s.run = .running) (h : exec i s = .next t) : t.run ≠ e := by
  rw [exec_run_eq hrun h]
  split
  · exact ownRun_ne he
  · exact hreg.symm

/-! ### The end of memory -/

/-- A result of a control transfer that did not end the run: the program counter is a byte. -/
theorem pc_le_of_jump {v : Byte} (h : (.next (u.jump v) : Result) = .next t) : t.pc.toNat ≤ 255 := by
  cases h
  exact (jump_pc_toNat u v).trans_le (Nat.le_of_lt_succ v.isLt)

theorem pc_le_of_jump_or_ending {c : Prop} [Decidable c] {e : RunState} {v : Byte}
    (h : (if c then .next { s with run := e } else .next (u.jump v) : Result) = .next t) (he : e ≠ .running) (ht : t.run = .running) :
    t.pc.toNat ≤ 255 := by
  split at h
  · cases h; exact absurd ht he
  · exact pc_le_of_jump h

theorem pc_le_of_call {r : RegIx} (h : exec (.call (regByte r)) s = .next t) (ht : t.run = .running) :
    t.pc.toNat ≤ 255 := by
  have h := (execCall_eq s r).symm.trans h
  split at h
  · cases h; cases ht
  · exact pc_le_of_jump_or_ending h nofun ht

/-- An instruction that runs on has registers for its register operands. -/
theorem wellFormed_of_running (h : exec i s = .next t) (ht : t.run = .running) : i.wellFormed = true := by
  cases hwf : i.wellFormed with
  | true => rfl
  | false => rw [exec_of_not_wellFormed hwf h] at ht; cases ht

theorem eq_regByte_of_namesRegister {a : Byte} (h : namesRegister a = true) : ∃ r, a = regByte r :=
  (regByte_or_out_of_range a).resolve_right (Nat.not_le_of_lt (of_decide_eq_true h))

/-- Settles O15: past memory nothing is fetched (`step_past_memory`); the other ways a step can go raise another ending or
none; each transfer writes `pc` from a byte. -/
theorem pcPastEndHaltsExactlyThere : Obligations.PcPastEndHaltsExactlyThere := by
  refine ⟨fun s => step_past_memory, fun s t hstep ht => ?past, fun s t a i hi hrun h ht => ?transfer⟩
  case past =>
    obtain ⟨hrun, ⟨hpc, -⟩ | ⟨-, -, rfl⟩ | ⟨-, -, -, rfl⟩ | ⟨i, -, hexec⟩⟩ := step_cases hstep
    · exact hpc
    · cases ht
    · cases hrun.symm.trans ht
    · exact absurd ht (exec_run_ne id nofun hrun hexec)
  case transfer =>
    have hwf := wellFormed_of_running h ht
    rcases hi with rfl | rfl | rfl | ⟨rfl, he⟩ | ⟨rfl, he⟩
    · exact pc_le_of_jump_or_ending ((execRet_eq s).symm.trans h) nofun ht
    all_goals obtain ⟨r, rfl⟩ := eq_regByte_of_namesRegister hwf
    · exact pc_le_of_call h ht
    · exact pc_le_of_jump ((execJmp_eq s r).symm.trans h)
    · have h := (execJeq_eq s r).symm.trans h
      rw [if_pos he] at h
      exact pc_le_of_jump h
    · have h := (execJne_eq s r).symm.trans h
      rw [if_neg (ne_true_of_eq_false he)] at h
      exact pc_le_of_jump h

/-! ### The operand fetch and the register check -/

/-- Settles O16: an operand byte is missing when the last address fetched exceeds 255 (`operandFetchFaultsFrom`); with all
of them in memory the step does not raise this fault. -/
theorem operandFetchFaultsExactlyPastMemory : Obligations.OperandFetchFaultsExactlyPastMemory := by
  intro s ir hrun hop
  have hcount := operandsFetched_eq ir
  have hpc := hop.1
  constructor
  · intro hstep
    rw [← hop.2] at hcount ⊢
    obtain ⟨-, ⟨hge, -⟩ | ⟨-, hmissing, -⟩ | ⟨-, -, -, hnop⟩ | ⟨i, -, hexec⟩⟩ := step_cases hstep
    · omega
    · omega
    · cases (congrArg State.run hnop).trans hrun
    · exact absurd rfl (exec_run_ne (e := .faulted .operandFetchOutOfRange) id nofun hrun hexec)
  · intro hpast
    have hmissing : 256 ≤ s.pc.toNat + operandsFetched ir := by omega
    exact operandFetchFaultsFrom hmissing s hrun hop le_rfl

/-- Settles O17: the check of each format is its well-formedness, and a well-formed instruction raises its own condition
alone (`ownRun_ne`). -/
theorem registerOperandsAboveSevenFault : Obligations.RegisterOperandsAboveSevenFault := by
  refine ⟨?formatsRAndRI, ?formatRR, fun i s t hwf hrun h => ?converse⟩
  case formatsRAndRI =>
    refine ⟨?_, ?_, ?_, ?_, ?_, ?_, ?_, ?_, ?_, fun b => ?_⟩ <;> exact badRegisterFaults fun _ => rfl
  case formatRR =>
    refine ⟨?_, ?_, ?_, ?_, ?_, ?_, ?_⟩ <;> exact badRegistersFault fun _ _ => rfl
  case converse =>
    rw [exec_run_eq_ownRun hrun hwf h]
    exact ownRun_ne id

/-! ### The order of the conditions -/

/-- Settles O19: each clause names a way the step went (`step_past_memory`, `operandFetchFaultsFrom`, `step_of_unknown`,
`step_of_bytesAtPc`), and the step has one answer. -/
theorem runAfterAStepFollowsThePriorityList : Obligations.RunAfterAStepFollowsThePriorityList := by
  intro s t hstep
  have hrun := running_of_step hstep
  refine ⟨fun hpc => ?past, fun ir hop => ⟨fun hmissing => ?fetch, fun hfit hunknown => ?unknown⟩, fun i hbytes => ?own⟩
  case past =>
    cases (step_past_memory hrun hpc).symm.trans hstep
    rfl
  case fetch =>
    rw [← operandsFetched_eq] at hmissing
    cases (operandFetchFaultsFrom hmissing s hrun hop le_rfl).symm.trans hstep
    rfl
  case unknown =>
    rw [← operandsFetched_eq] at hfit
    cases (step_of_unknown hrun hop (rowOf_eq_none hunknown) hfit).symm.trans hstep
    exact hrun
  case own => exact exec_run_eq hrun ((step_of_bytesAtPc hrun hbytes).symm.trans hstep)

/-! ### The stack fault -/

theorem endsIf_eq_iff {cond : Bool} {e : RunState} (he : e ≠ .running) : endsIf cond e = e ↔ cond = true := by
  cases cond
  · exact iff_of_false he.symm nofun
  · exact iff_of_true rfl rfl

@[simp] theorem regByte_inj {r q : RegIx} : regByte r = regByte q ↔ r = q := by
  constructor
  · intro h
    have hval := congrArg BitVec.toNat h
    rw [regByte_toNat, regByte_toNat] at hval
    exact Fin.ext hval
  · exact congrArg regByte

/-- The byte that POP increments, by its two cases (43_stack.md R142). -/
theorem popBase_eq_iff (s : State) (r : RegIx) (v : Byte) :
    popBase s r = v ↔ (r ≠ 7 ∧ s.getReg 7 = v) ∨ (r = 7 ∧ s.mem.read (s.getReg 7).toNat = v) := by
  by_cases hr : r = 7 <;> simp only [popBase, hr, if_true, if_false, ne_eq, not_true, not_false_eq_true, true_and,
    false_and, or_false, false_or]

/-- CALL asks for the stack pointer only when the return address fits (44_control.md R151). -/
theorem callRun_eq_stackFault_iff (s : State) :
    callRun s = .faulted .stackPointerOutOfRange ↔ s.pc.toNat + 2 ≤ 255 ∧ s.getReg 7 = 0#8 := by
  unfold callRun
  split
  · next hpast => exact iff_of_false nofun fun h => absurd h.1 (Nat.not_le_of_lt hpast)
  · next hfits => rw [endsIf_eq_iff (e := .faulted _) nofun, beq_iff_eq, and_iff_right (Nat.le_of_not_lt hfits)]

/-- Settles O45: RUN is the instruction's own condition (`exec_run_eq`), which for PUSH, POP, CALL and RET is the move of the
stack pointer and for the others is another ending or none. -/
theorem onlyStackInstructionsRaiseTheStackFault : Obligations.OnlyStackInstructionsRaiseTheStackFault := by
  intro i s t hrun h
  have hother : ∀ (c : Bool) (e : RunState), e ≠ .faulted .stackPointerOutOfRange →
      endsIf c e ≠ .faulted .stackPointerOutOfRange := fun _ _ => endsIf_ne_of_ne nofun
  rw [exec_run_eq hrun h]
  rcases exec_cases h with ⟨hwf, -⟩ | ⟨hwf, rfl | rfl |
    ⟨r, rfl | rfl | rfl | rfl | rfl | rfl | rfl | rfl | rfl | ⟨b, rfl⟩⟩ |
    ⟨r, q, rfl | rfl | rfl | rfl | rfl | rfl | rfl⟩⟩
  case inl =>
    rw [hwf]
    refine iff_of_false nofun ?_
    rintro (⟨r, rfl, -⟩ | ⟨r, rfl, -⟩ | ⟨rfl, -⟩ | ⟨r, rfl, -⟩ | ⟨rfl, -⟩)
    · cases (namesRegister_regByte r).symm.trans hwf
    · cases (namesRegister_regByte r).symm.trans hwf
    · cases hwf
    · cases (namesRegister_regByte r).symm.trans hwf
    · cases (namesRegister_regByte 7).symm.trans hwf
  all_goals rw [if_pos hwf]
  all_goals simp [ownRun, endsIf_eq_iff, popBase_eq_iff, callRun_eq_stackFault_iff, hother]

end Sys2Proof.Proofs
end

