-- ==== Sys2Proof/Proofs/Memory.lean ====
section
/-! PROOFS. Memory at reset, after the loader, and its canonical form (spec/10_state.md R46; 70_reset_and_hazards.md R203). -/

namespace Sys2Proof.Proofs

open Sys2Proof Sys2Proof.Machine

/-! ### Reset and the loader -/

/-- Settles O1: nothing is listed in memory, and the other pieces of state are written out. -/
theorem resetGivesEveryPieceOfStateItsValue : Obligations.ResetGivesEveryPieceOfStateItsValue :=
  ⟨by decide, rfl, rfl, rfl, rfl, Memory.read_nil, rfl⟩

/-- Settles O2: the loader takes the image on its length alone, and what it writes reads back (`Memory.read_writeList`). -/
theorem loaderPlacesTheImageFromAddressZero : Obligations.LoaderPlacesTheImageFromAddressZero := by
  refine ⟨fun image hlen => ?loaded, fun image s hlen => if_neg (Nat.not_le_of_lt hlen)⟩
  case loaded =>
    have hload : loadImage image State.reset = .next _ := if_pos hlen
    refine ⟨_, hload, fun i hi => ?_, fun a ha => ?_, rfl, loadImage_wf reset_mem_wf hload⟩
    · rw [Memory.read_writeList, dif_pos ⟨Nat.zero_le i, hi, Nat.lt_of_lt_of_le hi hlen⟩]
      rfl
    · rw [Memory.read_writeList, dif_neg fun h => absurd h.2.1 (Nat.not_lt_of_le ha)]
      rfl

/-! ### The canonical form -/

/-- An address that reads as something else than its reset content is listed, with the byte read. -/
theorem mem_of_read_ne {m : Memory} {a : Nat} (h : m.read a ≠ Config.memReset) : (a, m.read a) ∈ m := by
  induction m with
  | nil => exact absurd rfl h
  | cons c rest ih =>
    obtain ⟨k, w⟩ := c
    rw [Memory.read_cons] at h ⊢
    split at h
    · next hk => rw [if_pos hk, hk]; exact List.mem_cons_self
    · next hk => rw [if_neg hk]; exact List.mem_cons_of_mem _ (ih h)

/-- A listed byte is the one read: with rising addresses no earlier cell has the same address. -/
theorem read_eq_of_mem {m : Memory} (hm : m.wf) {a : Nat} {v : Byte} (h : (a, v) ∈ m) : m.read a = v := by
  induction m with
  | nil => cases h
  | cons c rest ih =>
    obtain ⟨k, w⟩ := c
    rw [Memory.read_cons]
    rcases List.mem_cons.mp h with heq | hrest
    · cases heq; exact if_pos rfl
    · have hlt : k < a := (List.pairwise_cons.mp hm.1).1 _ hrest
      rw [if_neg (Nat.ne_of_gt hlt)]
      exact ih (Memory.wf_tail hm) hrest

/-- A canonical memory lists exactly what reads as something else than the reset content. -/
theorem mem_iff_read {m : Memory} (hm : m.wf) (a : Nat) (v : Byte) :
    (a, v) ∈ m ↔ m.read a = v ∧ v ≠ Config.memReset := by
  constructor
  · exact fun h => ⟨read_eq_of_mem hm h, (hm.2 _ h).2⟩
  · rintro ⟨rfl, hne⟩
    exact mem_of_read_ne hne

/-- Settles O8: two lists with rising addresses that hold the same cells (`mem_iff_read`) are equal. -/
theorem canonicalMemoriesThatReadAlikeAreEqual : Obligations.CanonicalMemoriesThatReadAlikeAreEqual := by
  intro m m' hm hm' hread
  have hasymm : Std.Asymm fun c d : Host.Cell => c.1 < d.1 := ⟨fun _ _ => Nat.lt_asymm⟩
  refine hm.1.eq_of_mem_iff hm'.1 fun c => ?_
  rw [mem_iff_read hm, mem_iff_read hm', hread]

/-! ### A byte stored in front of the next fetch -/

theorem fetch_head? {s : State} (hpc : s.pc.toNat ≤ 255) : (fetch s).head? = some (s.mem.read s.pc.toNat) := by
  obtain ⟨operands, hfetch, -⟩ := fetch_in_memory (Nat.lt_succ_of_le hpc) rfl
  rw [hfetch, List.head?_cons]

/-- Settles O55: the step is the PUSH that O41 describes, which stores where `pc` then stands. -/
theorem storedByteIsFetchedByTheNextStep : Obligations.StoredByteIsFetchedByTheNextStep := by
  intro s ra hrun hbytes hsp haddr
  obtain ⟨-, -, -, hpush, -⟩ := pushDecrementsThenStores
  obtain ⟨t, hexec, -, -, hstored, -, -, hpc, -⟩ := hpush s ra hsp
  have hnext : t.pc.toNat = s.pushAddr.toNat :=
    calc t.pc.toNat
      _ = (s.advance 1).pc.toNat := congrArg BitVec.toNat hpc
      _ = s.pc.toNat + 2 := advance_pc_toNat (opcodeAtPc_of_bytesAtPc hbytes).1 (by decide)
      _ = s.pushAddr.toNat := haddr.symm
  refine ⟨t, (step_of_bytesAtPc hrun hbytes).trans hexec, ?_⟩
  rw [fetch_head? (hnext ▸ Nat.le_of_lt_succ s.pushAddr.isLt), hnext, hstored]

end Sys2Proof.Proofs
end

