-- ==== Sys2Proof/Proofs/Arithmetic.lean ====
section
/-! PROOFS. MOD, and the laws of the ALU's arithmetic (spec/42_alu.md R124, R129 to R131). -/

namespace Sys2Proof.Proofs

open Sys2Proof Sys2Proof.Machine

/-- Settles O33: as DIV, with the remainder of words, which is the unsigned remainder. -/
theorem modWritesTheRemainderOrFaults : Obligations.ModWritesTheRemainderOrFaults := by
  refine ⟨fun _ _ => rfl, operandFetchFaultsFrom (by decide), badRegistersFault fun _ _ => rfl,
    fun s ra rb hdivisor => ?remainder, fun s ra rb hzero => ?fault⟩
  case remainder =>
    exact exists_next_of_setReg_advance (fun v => v.toNat = (s.getReg ra).toNat % (s.getReg rb).toNat)
      ((execMod_eq s ra rb).trans (if_neg hdivisor)) BitVec.toNat_umod
  case fault => exact (execMod_eq s ra rb).trans (if_pos hzero)

theorem toNat_pos_of_ne_zero {x : Byte} (h : x ≠ 0#8) : 0 < x.toNat :=
  Nat.pos_of_ne_zero fun h0 => h (BitVec.eq_of_toNat_eq h0)

/-- Settles O38: DIV leaves the quotient (O34) and MOD the remainder (O33) of one division of numbers. -/
theorem divAndModFitTogether : Obligations.DivAndModFitTogether := by
  intro s ra rb hdivisor
  obtain ⟨-, -, -, hdiv, -⟩ := divWritesTheQuotientOrHalts
  obtain ⟨-, -, -, hmod, -⟩ := modWritesTheRemainderOrFaults
  obtain ⟨q, hq, hquotient, -⟩ := hdiv s ra rb hdivisor
  obtain ⟨r, hr, hremainder, -⟩ := hmod s ra rb hdivisor
  refine ⟨q, r, hq, hr, ?_, ?_⟩
  · rw [hquotient, hremainder, Nat.div_add_mod']
  · rw [hremainder]
    exact Nat.mod_lt _ (toNat_pos_of_ne_zero hdivisor)

/-! ### Operands read as signed -/

theorem trunc8_toInt (x : Byte) : trunc8 x.toInt = x := BitVec.ofInt_toInt

theorem trunc8_add (m n : Int) : trunc8 (m + n) = trunc8 m + trunc8 n := BitVec.ofInt_add m n

theorem trunc8_mul (m n : Int) : trunc8 (m * n) = trunc8 m * trunc8 n := BitVec.ofInt_mul m n

/-- Settles O39: narrowing is a homomorphism that takes a byte's signed reading back to the byte, so both readings give the
word operation. -/
theorem aluResultsAreTheSameReadSigned : Obligations.AluResultsAreTheSameReadSigned := by
  refine fun x y => ⟨?add, ?mul, ?inc, ?dec⟩
  case add => rw [aluAdd_eq, trunc8_add, trunc8_toInt, trunc8_toInt]
  case mul => rw [aluMul_eq, trunc8_mul, trunc8_toInt, trunc8_toInt]
  case inc => rw [aluInc_eq, trunc8_add, trunc8_toInt]; rfl
  case dec => rw [aluDec_eq, Int.sub_eq_add_neg, trunc8_add, trunc8_toInt, BitVec.sub_eq_add_neg]; rfl

/-! ### Results in range -/

theorem trunc8_toNat_of_le {n : Nat} (h : n ≤ 255) : (trunc8 n).toNat = n := by
  rw [trunc8_natCast, BitVec.toNat_ofNat]
  exact Nat.mod_eq_of_lt (Nat.lt_succ_of_le h)

/-- Settles O40: narrowing leaves a number up to 255 as it is (`trunc8_toNat_of_le`); DEC from above 0 does not wrap, and a
quotient is no larger than its dividend. -/
theorem inRangeResultsAreUnbounded : Obligations.InRangeResultsAreUnbounded := by
  refine fun x y => ⟨fun h => trunc8_toNat_of_le h, fun h => trunc8_toNat_of_le h, fun h => trunc8_toNat_of_le h,
    fun h => ?dec, fun q hy hx => ?div⟩
  case dec => rw [aluDec_eq]; bv_omega
  case div =>
    have hq : x.toNat / y.toNat = q := Nat.div_eq_of_eq_mul_left hy hx
    refine ⟨_, if_neg (Nat.ne_of_gt hy), ?_⟩
    rw [hq]
    exact trunc8_toNat_of_le (hq ▸ (Nat.div_le_self _ _).trans (Nat.le_of_lt_succ x.isLt))

end Sys2Proof.Proofs
end

