-- ==== Sys2Proof/Proofs/Sequences.lean ====
section
/-! PROOFS. CALL, and instructions executed one after another: pairs of LDI and PRN (spec/41_data_movement.md), pushes and a
pop (43_stack.md), a comparison and a branch, a call and its return (44_control.md). -/

namespace Sys2Proof.Proofs

open Sys2Proof Sys2Proof.Machine

variable {i : Instr} {s t : State}

theorem execList_cons (h : exec i s = .next t) (rest : List Instr) : execList (i :: rest) s = execList rest t := by
  simp only [execList, h]

theorem execList_pair {j : Instr} {u : State} (h : exec i s = .next t) (hj : exec j t = .next u) :
    execList [i, j] s = .next u :=
  (execList_cons h [j]).trans (execList_cons hj [])

/-! ### LDI and PRN -/

/-- Settles O29, by induction on the list: a pair loads a byte, emits it, and moves `pc` by 3 and 2. -/
theorem ldiPrnPairsOutputTheValuesLoaded : Obligations.LdiPrnPairsOutputTheValuesLoaded := by
  intro vs
  induction vs with
  | nil => exact fun s => ⟨s, rfl, (List.append_nil _).symm, rfl, fun _ => rfl, rfl, (BitVec.add_zero _).symm⟩
  | cons p vs ih =>
    intro s
    obtain ⟨r, v⟩ := p
    have hldi : exec (.ldi (regByte r) v) s = _ := execLdi_eq s r v
    have hprn : exec (.prn (regByte r)) ((s.setReg r v).advance 2) = _ := execPrn_eq _ r
    obtain ⟨t, ht, hout, hfl, hmem, hrun, hpc⟩ := ih _
    refine ⟨t, ((execList_cons hldi _).trans (execList_cons hprn _)).trans ht, ?_, hfl, hmem, hrun, ?_⟩
    · rw [hout]
      simp
    · rw [hpc]
      simp only [State.advance_pc, State.emit_pc, State.setReg_pc, List.length_cons, BitVec.add_assoc, ← BitVec.ofNat_add]
      congr 2
      omega

/-! ### The stack -/

theorem eq_of_toNat_add_one {x y z : Byte} (hx : x.toNat + 1 = z.toNat) (hy : y.toNat = x.toNat + 1) : y = z :=
  BitVec.eq_of_toNat_eq (hy.trans hx)

/-- A byte with a successor among the bytes is not the last. -/
theorem ne_top_of_toNat_add_one {x y : Byte} (h : x.toNat + 1 = y.toNat) : x ≠ 255#8 := by
  rintro rfl
  exact absurd y.isLt (h ▸ Nat.lt_irrefl 256)

/-- Settles O43: the PUSH of O41, then the POP of O42 from the stack pointer it left. -/
theorem popAfterPushReturnsTheValue : Obligations.PopAfterPushReturnsTheValue := by
  intro s ra rb hsp hra hrb
  obtain ⟨-, -, -, hpush, -⟩ := pushDecrementsThenStores
  obtain ⟨-, -, -, hpop, -⟩ := popLoadsThenIncrements
  obtain ⟨u, hu, hbelow, hpointer, hstored, -, huregs, hupc, -, -, hurun⟩ := hpush s ra hsp
  rw [if_neg hra, ← hpointer] at hstored
  obtain ⟨t, ht, hvalue, habove, htregs, htmem, htpc, -, -, htrun⟩ :=
    hpop u rb _ _ rfl (if_neg hrb).symm (ne_top_of_toNat_add_one hbelow)
  have hrestored : t.getReg 7 = s.getReg 7 := eq_of_toNat_add_one hbelow habove
  refine ⟨t, execList_pair hu ht, (hvalue hrb).trans hstored, hrestored, ?byte, ?regs, ?pc, htrun.trans hurun⟩
  case byte => rw [← hbelow, Nat.add_sub_cancel, htmem, hstored]
  case regs =>
    intro q hq
    by_cases hq7 : q = 7
    · rw [hq7, hrestored]
    · exact (htregs q (by simpa [hq7] using hq)).trans (huregs q (by simpa using hq7))
  case pc => rw [htpc, hupc, BitVec.add_assoc]; rfl

/-- Settles O44, by induction on the list: the first push stores at the highest address and the others, which start one
lower, leave that cell and all above it alone. -/
theorem pushesFillTheStackDownward : Obligations.PushesFillTheStackDownward := by
  obtain ⟨-, -, -, hpush, -⟩ := pushDecrementsThenStores
  intro rs
  induction rs with
  | nil => exact fun s _ _ => ⟨s, rfl, rfl, nofun, fun _ _ => rfl, rfl⟩
  | cons r rs ih =>
    intro s hrs hlen
    obtain ⟨hr, hrs⟩ := List.forall_mem_cons.mp hrs
    rw [List.length_cons] at hlen
    have hsp : s.getReg 7 ≠ 0#8 := fun h0 => by simp [h0] at hlen
    obtain ⟨u, hu, hbelow, hpointer, hstored, humem, huregs, -, -, -, hurun⟩ := hpush s r hsp
    rw [if_neg hr] at hstored
    rw [← hpointer] at hstored humem
    obtain ⟨t, ht, htsp, hbytes, hframe, htrun⟩ := ih u hrs (by omega)
    refine ⟨t, (execList_cons hu _).trans ht, ?pointer, ?bytes, ?frame, htrun.trans hurun⟩
    case pointer => rw [List.length_cons]; omega
    case bytes =>
      intro k hk
      cases k with
      | zero => rw [← hbelow, Nat.add_sub_cancel, Nat.sub_zero, hframe _ (.inl le_rfl), hstored]; rfl
      | succ k =>
        have hk' : k < rs.length := Nat.lt_of_succ_lt_succ hk
        have haddr : (s.getReg 7).toNat - 1 - (k + 1) = (u.getReg 7).toNat - 1 - k := by omega
        rw [haddr, hbytes k hk', List.getElem_cons_succ]
        exact huregs _ (by simpa using hrs _ (List.getElem_mem hk'))
    case frame =>
      intro a ha
      rw [List.length_cons] at ha
      rw [hframe a (by omega), humem a (by omega)]

/-! ### CALL and RET -/

/-- Settles O46: `execCall_eq` splits on the return address and then on the stack pointer; with both in range it is PUSH's
write of `x[7]` and store, of `pc + 2`, and a jump to the operand as read after them. -/
theorem callPushesTheReturnAddressAndJumps : Obligations.CallPushesTheReturnAddressAndJumps := by
  refine ⟨fun _ => rfl, operandFetchFaultsFrom (by decide), badRegisterFaults fun _ => rfl,
    fun s ra hret hsp => ?completes, fun s ra hret => (execCall_eq s ra).trans (if_pos hret),
    fun s ra hret hsp => ?stackFault⟩
  case stackFault =>
    exact (execCall_eq s ra).trans ((if_neg (Nat.not_lt_of_le hret)).trans (if_pos hsp))
  case completes =>
    refine ⟨_, (execCall_eq s ra).trans ((if_neg (Nat.not_lt_of_le hret)).trans (if_neg hsp)), ?below, ?pointer, ?stored,
      ?mem, sameRegsBut_setReg s 7 s.pushAddr, ?pc, rfl, rfl, rfl⟩
    case below =>
      rw [State.getReg_jump, State.getReg_store, State.getReg_setReg_self]
      exact State.pushAddr_toNat hsp
    case pointer => exact s.getReg_setReg_self 7 s.pushAddr
    case stored =>
      rw [State.jump_mem, State.store_mem, Memory.read_write_self, BitVec.toNat_ofNat]
      exact Nat.mod_eq_of_lt (Nat.lt_succ_of_le hret)
    case mem => exact sameMemBut_store (s.setReg 7 s.pushAddr) s.pushAddr _
    case pc => rw [jump_pc_toNat, State.getReg_setReg]

/-- Settles O52: the CALL is O46's; RET, O47's, reads the byte it left and steps the stack pointer back. -/
theorem retReturnsBehindTheCall : Obligations.RetReturnsBehindTheCall := by
  intro s t u ra hret hsp hcall husp humem
  obtain ⟨-, -, -, hcompletes, -, -⟩ := callPushesTheReturnAddressAndJumps
  obtain ⟨-, -, hreturns, -⟩ := retPopsTheProgramCounter
  obtain ⟨t', ht', hbelow, hpointer, hstored, -⟩ := hcompletes s ra hret hsp
  cases hcall.symm.trans ht'
  rw [← husp] at hbelow
  obtain ⟨v, hv, hpc, habove, hregs, hmem, -, hout, -⟩ := hreturns u (ne_top_of_toNat_add_one hbelow)
  refine ⟨v, hv, ?_, eq_of_toNat_add_one hbelow habove, hregs, hmem, hout⟩
  rw [hpc, husp, humem, hpointer, hstored]

/-! ### CMP and a branch -/

/-- Settles O51: CMP leaves the comparison in the equal flag, which JEQ (O49) and JNE (O50) follow from `pc + 3`. -/
theorem branchAfterCmpFollowsTheComparison : Obligations.BranchAfterCmpFollowsTheComparison := by
  intro s ra rb rc
  obtain ⟨-, -, -, hjeq⟩ := jeqJumpsWhenEqual
  obtain ⟨-, -, -, hjne⟩ := jneJumpsWhenUnequal
  obtain ⟨-, -, -, hcmp⟩ := cmpWritesTheEqualFlag
  obtain ⟨c, hc, hflag, -, hregs, hcpc, -⟩ := hcmp s ra rb
  obtain ⟨t, ht, htaken, hfalls, -⟩ := hjeq c rc
  obtain ⟨u, hu, hutaken, hufalls, -⟩ := hjne c rc
  have hpc : c.pc + 2 = s.pc + 5 := by rw [hcpc, BitVec.add_assoc]; rfl
  have htarget : c.getReg rc = s.getReg rc := hregs rc List.not_mem_nil
  rw [hpc] at hfalls hufalls
  rw [htarget] at htaken hutaken
  refine ⟨t, u, execList_pair hc ht, execList_pair hc hu, fun heq => ?equal, fun hne => ?unequal⟩
  case equal =>
    have he := hflag.mpr heq
    exact ⟨htaken he, hufalls he⟩
  case unequal =>
    have he := Bool.eq_false_iff.mpr (mt hflag.mp hne)
    exact ⟨hfalls he, hutaken he⟩

end Sys2Proof.Proofs
end
